-- ==== Sys2Proof/Word.lean ====
section
/-! DEFINITION. The word of the LS-8: every register, memory cell and instruction byte is an unsigned 8-bit value
(`00_scope.md` R7). Bit 0 is the least significant bit. -/

namespace Sys2Proof

/-- A byte, an unsigned value 0..255; also an address and a program counter (R5: XLEN = ALEN = 8, `10_state.md` R24). -/
abbrev Byte := BitVec 8

end Sys2Proof
end

