-- ==== Sys2Proof/Syntax.lean ====
section
/-! DEFINITION. The 16 instructions of `30_encoding.md` R74, in the table's order, and their mnemonics.
Operands are the raw operand bytes, as decoding yields them (R80): a register operand is a whole byte, legal 0..7 (R73);
WellFormed.lean checks it and the machine faults on an illegal one. -/

namespace Sys2Proof

/-- The 16 mnemonics; the keys of the opcode map OPC. -/
inductive Mnemonic where
  | ldi | prn | pra | hlt | push | pop | call | ret
  | add | st | iret | jmp | cmp | jeq | jne | mul
  deriving DecidableEq, Repr

/-- All mnemonics, in the table's order. -/
def Mnemonic.all : List Mnemonic :=
  [.ldi, .prn, .pra, .hlt, .push, .pop, .call, .ret, .add, .st, .iret, .jmp, .cmp, .jeq, .jne, .mul]

/-- NOPS: the operand count of each mnemonic (R74). -/
def Mnemonic.nops : Mnemonic → Nat
  | .hlt | .ret | .iret => 0
  | .prn | .pra | .push | .pop | .call | .jmp | .jeq | .jne => 1
  | .ldi | .add | .st | .cmp | .mul => 2

/-- One constructor per row of the opcode table. `a` is operandA, `b` (or the immediate `v`) is operandB. -/
inductive Instr where
  /-- `LDI reg value` (R130) -/
  | ldi (a v : Byte)
  /-- `PRN reg` (R132) -/
  | prn (a : Byte)
  /-- `PRA reg` (R133) -/
  | pra (a : Byte)
  /-- `HLT` (R150) -/
  | hlt
  /-- `PUSH reg` (R122) -/
  | push (a : Byte)
  /-- `POP reg` (R123) -/
  | pop (a : Byte)
  /-- `CALL reg` (R143) -/
  | call (a : Byte)
  /-- `RET` (R144) -/
  | ret
  /-- `ADD regA regB` (R111) -/
  | add (a b : Byte)
  /-- `ST regA regB` (R131) -/
  | st (a b : Byte)
  /-- `IRET` (R151) -/
  | iret
  /-- `JMP reg` (R140) -/
  | jmp (a : Byte)
  /-- `CMP regA regB` (R112) -/
  | cmp (a b : Byte)
  /-- `JEQ reg` (R141) -/
  | jeq (a : Byte)
  /-- `JNE reg` (R142) -/
  | jne (a : Byte)
  /-- `MUL regA regB` (R110) -/
  | mul (a b : Byte)
  deriving DecidableEq, Repr

/-- The mnemonic of an instruction. -/
def Instr.mnemonic : Instr → Mnemonic
  | .ldi _ _ => .ldi
  | .prn _ => .prn
  | .pra _ => .pra
  | .hlt => .hlt
  | .push _ => .push
  | .pop _ => .pop
  | .call _ => .call
  | .ret => .ret
  | .add _ _ => .add
  | .st _ _ => .st
  | .iret => .iret
  | .jmp _ => .jmp
  | .cmp _ _ => .cmp
  | .jeq _ => .jeq
  | .jne _ => .jne
  | .mul _ _ => .mul

/-- The operand bytes, operandA first (R70). -/
def Instr.operandBytes : Instr → List Byte
  | .hlt | .ret | .iret => []
  | .prn a | .pra a | .push a | .pop a | .call a | .jmp a | .jeq a | .jne a => [a]
  | .ldi a v => [a, v]
  | .add a b | .st a b | .cmp a b | .mul a b => [a, b]

/-- The operand bytes that are register indices, operandA first: operandA of every instruction that has one, operandB
of ST, ADD, MUL and CMP (R73). -/
def Instr.registerBytes : Instr → List Byte
  | .hlt | .ret | .iret => []
  | .prn a | .pra a | .push a | .pop a | .call a | .jmp a | .jeq a | .jne a | .ldi a _ => [a]
  | .add a b | .st a b | .cmp a b | .mul a b => [a, b]

end Sys2Proof
end

