-- ==== Sys2Proof/WellFormed.lean ====
section
/-! DEFINITION. What a well-formed instruction and a well-formed opcode map are. -/

namespace Sys2Proof

/-- Every register-index byte names one of R0..R7 (`30_encoding.md` R73, R78). LDI's immediate is free. -/
def Instr.wf (i : Instr) : Bool := i.registerBytes.all fun b => b.toNat < 8

/-- An opcode map OPC: one byte per mnemonic (R74, R75(a)). -/
structure OpcodeMap where
  (ldi prn pra hlt push pop call ret add st iret jmp cmp jeq jne mul : Byte)
  deriving DecidableEq, Repr

/-- `OPC(m)`. -/
def OpcodeMap.byte (opc : OpcodeMap) : Mnemonic → Byte
  | .ldi => opc.ldi
  | .prn => opc.prn
  | .pra => opc.pra
  | .hlt => opc.hlt
  | .push => opc.push
  | .pop => opc.pop
  | .call => opc.call
  | .ret => opc.ret
  | .add => opc.add
  | .st => opc.st
  | .iret => opc.iret
  | .jmp => opc.jmp
  | .cmp => opc.cmp
  | .jeq => opc.jeq
  | .jne => opc.jne
  | .mul => opc.mul

/-- The constraints R75(b), bits 7:6 of the opcode are the operand count, and R75(c), the map is injective. -/
abbrev OpcodeMap.wf (opc : OpcodeMap) : Prop :=
  (∀ m ∈ Mnemonic.all, (opc.byte m).toNat / 64 = m.nops) ∧ (Mnemonic.all.map opc.byte).Nodup

end Sys2Proof
end

