-- ==== Sys2Proof/Decode.lean ====
section
/-! DEFINITION. Encoding and decoding (`30_encoding.md` R70..R80), for any opcode map, and the default map. -/

namespace Sys2Proof

/-! ## The opcode map -/

/-- OPC_DEFAULT (R74), the map that State.reset holds. PRESUMED, unsafe: no opcode byte is in the source document; the spec
supplies these from general knowledge (D1, G1); log 1. -/
def opcDefault : OpcodeMap where
  ldi := 0x99
  prn := 0x43
  pra := 0x42
  hlt := 0x01
  push := 0x4D
  pop := 0x4C
  call := 0x48
  ret := 0x09
  add := 0xA8
  st := 0x9A
  iret := 0x0B
  jmp := 0x50
  cmp := 0xA0
  jeq := 0x51
  jne := 0x52
  mul := 0xAA

/-! ## Decoding -/

/-- Why bytes are no instruction (R80). -/
inductive DecodeError where
  /-- The opcode byte is not in the image of OPC (R77). -/
  | unrecognized (opcode : Byte)
  /-- The opcode is recognized but the bytes end before its operands do. -/
  | operandsMissing (opcode : Byte)
  deriving DecidableEq, Repr

/-- The mnemonic whose opcode byte is `b0`, looked up by the whole byte (R72, R76). -/
def mnemonicOf (opc : OpcodeMap) (b0 : Byte) : Option Mnemonic :=
  Mnemonic.all.find? fun m => opc.byte m == b0

/-- Format F0: no operand byte (R72). -/
def formatF0 (i : Instr) (rest : List Byte) : Option (Instr × List Byte) := some (i, rest)

/-- Format F1: one operand byte (R72). -/
def formatF1 (mk : Byte → Instr) : List Byte → Option (Instr × List Byte)
  | a :: rest => some (mk a, rest)
  | [] => none

/-- Format F2: operandA, then operandB (R72). -/
def formatF2 (mk : Byte → Byte → Instr) : List Byte → Option (Instr × List Byte)
  | a :: b :: rest => some (mk a b, rest)
  | _ => none

/-- The operands of a recognized mnemonic, taken from the bytes after its opcode byte (R80). -/
def decodeOperands (m : Mnemonic) (rest : List Byte) : Option (Instr × List Byte) :=
  match m with
  | .ldi => formatF2 .ldi rest
  | .prn => formatF1 .prn rest
  | .pra => formatF1 .pra rest
  | .hlt => formatF0 .hlt rest
  | .push => formatF1 .push rest
  | .pop => formatF1 .pop rest
  | .call => formatF1 .call rest
  | .ret => formatF0 .ret rest
  | .add => formatF2 .add rest
  | .st => formatF2 .st rest
  | .iret => formatF0 .iret rest
  | .jmp => formatF1 .jmp rest
  | .cmp => formatF2 .cmp rest
  | .jeq => formatF1 .jeq rest
  | .jne => formatF1 .jne rest
  | .mul => formatF2 .mul rest

/-- Decode the opcode byte `b0` and the bytes that follow it, under an opcode map: the instruction and the bytes left
over, or why there is none (R80). Total on all bytes; an operand byte is not examined here (R77, R78). -/
def decodeWith (opc : OpcodeMap) (b0 : Byte) (rest : List Byte) : Except DecodeError (Instr × List Byte) :=
  match mnemonicOf opc b0 with
  | none => .error (.unrecognized b0)
  | some m =>
    match decodeOperands m rest with
    | none => .error (.operandsMissing b0)
    | some r => .ok r

/-- Decoding under OPC_DEFAULT. -/
def decode (b0 : Byte) (rest : List Byte) : Except DecodeError (Instr × List Byte) := decodeWith opcDefault b0 rest

/-! ## Encoding -/

/-- Encoding under an opcode map: the opcode byte, then the operand bytes in order (R80). -/
def encodeWith (opc : OpcodeMap) (i : Instr) : List Byte := opc.byte i.mnemonic :: i.operandBytes

/-- Encoding under OPC_DEFAULT. -/
def encode (i : Instr) : List Byte := encodeWith opcDefault i

/-! ## Words as spec/opcode_table.json numbers them -/

/-- The three bytes, lowest address first, of a word whose bit 0 is bit 0 of the first byte and whose bits from `nbits`
up are 0. -/
def tableBytes (nbits w : Nat) : List Byte :=
  let v := w % 2 ^ nbits
  [BitVec.ofNat 8 v, BitVec.ofNat 8 (v / 256), BitVec.ofNat 8 (v / 65536)]

/-- The instruction the decoder reads from a table word; the table's opcode bytes are OPC_DEFAULT's (log 1). -/
def decodeTableWord (nbits w : Nat) : Option Instr :=
  match tableBytes nbits w with
  | [] => none
  | b0 :: rest =>
    match decode b0 rest with
    | .ok r => some r.1
    | .error _ => none

end Sys2Proof
end

