-- ==== Sys2Proof/Config.lean ====
section
/-! DEFINITION. The implementation parameters of `00_scope.md` R5 that State and its reset value need. The opcode map
OPC and INT_PERIOD are data in State (OPC_DEFAULT stands in Decode.lean), the interrupt vector's address in Machine/Ops.lean. The hardware
has no free value: every result is given by a rule. -/

namespace Sys2Proof.Config

/-- MEM_SIZE: 256 cells, addresses 0..255 (`20_memory.md` R50). -/
def memSize : Nat := 256

/-- SP_RESET: the value of R7 after reset (`10_state.md` R29). -/
def spReset : Byte := 0xF4

/-- INT_PERIOD's nominal value, in ticks (R5, `60_exceptions.md` R180); log 13. -/
def nominalIntPeriod : Nat := 1000

/-- What a cell that nothing has written reads as: 0x00, the reference loader's image (`10_state.md` R35,
`70_reset_and_hazards.md` R193). DESIGN CHOICE, unsafe: MEM_INIT is an open parameter of the spec (D10); log 3. -/
def unlistedByte : Byte := 0

end Sys2Proof.Config
end

