-- ==== Sys2Proof/Machine/State.lean ====
section
/-! DEFINITION. The machine's state (`10_state.md`, every rule R20..R37), its reset value, and the reasons a
transaction can be turned away. -/

namespace Sys2Proof.Machine

/-- RUN (`10_state.md` R31). -/
inductive RunState where
  /-- A tick may be issued. -/
  | running
  /-- HLT has executed; absorbing. -/
  | halted
  /-- A fatal fault was raised; absorbing. -/
  | faulted
  deriving DecidableEq, Repr

/-- FCAUSE (`10_state.md` R31, `60_exceptions.md` R160). -/
inductive FaultCause where
  | none | unrecognizedOpcode | addressRange | registerIndex
  deriving DecidableEq, Repr

/-- One event of the output stream OUT (`10_state.md` R33). -/
inductive OutEvent where
  /-- `(DEC, v)`, appended by PRN. -/
  | dec (v : Byte)
  /-- `(CHR, v)`, appended by PRA. -/
  | chr (v : Byte)
  deriving DecidableEq, Repr

/-- The interrupt source (`00_scope.md` R6(2), `60_exceptions.md` R180); log 13. -/
inductive IrqSource where
  /-- The reference timer, with its parameter INT_PERIOD. -/
  | timer (period : Nat)
  /-- An unconstrained source: whether it issues `IRQ` at each coming tick boundary, the next one first; no `IRQ` after
  the list's end. -/
  | free (schedule : List Bool)
  deriving DecidableEq, Repr

/-- Memory: (address, byte) pairs in canonical form (`Memory.wf`), for the 256 cells of `20_memory.md` R50. A cell not
listed reads as `Config.unlistedByte`. -/
abbrev Memory := List Host.Cell

/-- Everything the spec gives the machine, and nothing else. The first eight fields are the core's registers and run
state, then memory and the output stream, then the platform's: the timer's counter, the interrupt source, and whether
the host has asked the scheduler to stop; last the parameter OPC. -/
structure State where
  /-- R0..R7; R5 is IM, R6 is IS, R7 is SP (R20, R21). -/
  regs : Vector Byte 8
  /-- The program counter (R24). -/
  pc : Byte
  /-- The flags: bit 2 L, bit 1 G, bit 0 E (R26). -/
  fl : Byte
  /-- The one-shot jump indicator, clear at every tick boundary (R30); log 18. -/
  jumped : Bool
  /-- RUN (R31). -/
  run : RunState
  /-- FCAUSE (R31). -/
  fcause : FaultCause
  /-- FINFO (R31). -/
  finfo : Byte
  /-- The 256 cells (R34). -/
  mem : Memory
  /-- OUT, oldest event first (R33). -/
  out : List OutEvent
  /-- CYCLE, the ticks issued since reset (R37). -/
  cycle : Nat
  /-- The interrupt source (R180). -/
  irqSource : IrqSource
  /-- `STOP` was requested (R36). -/
  stopped : Bool
  /-- The parameter OPC of this machine (`00_scope.md` R5, `30_encoding.md` R75); no transaction changes it; log 1. -/
  opc : OpcodeMap
  deriving DecidableEq, Repr

/-- The machine after `RESET` (`10_state.md` R35): R7 = 0xF4; every other register 0 (the spec's decision D9, log 2);
nothing listed in memory (log 3); the reference timer at its nominal period (log 13); OPC at OPC_DEFAULT
(log 1). -/
def State.reset : State where
  regs := #v[0, 0, 0, 0, 0, 0, 0, Config.spReset]
  pc := 0
  fl := 0
  jumped := false
  run := .running
  fcause := .none
  finfo := 0
  mem := []
  out := []
  cycle := 0
  irqSource := .timer Config.nominalIntPeriod
  stopped := false
  opc := opcDefault

/-- Why a transaction stops the model. No instruction and no step raises one: the hardware's three fatal faults are
next states with RUN = FAULTED (`60_exceptions.md` R161; log 8). -/
inductive Fault where
  /-- Raised by the loader's `LOAD` at an address above 255, which does not exist (`10_state.md` R36: "address 0..255";
  `70_reset_and_hazards.md` R193). Safe; log 16. -/
  | loadOutsideMemory
  deriving DecidableEq, Repr

/-- What the model does not do. -/
inductive Refusal where
  /-- Raised by an arm of `exec` that has no meaning yet: by none. Safe. -/
  | notModelled (mnemonic : String)
  /-- Raised by `LOAD` after the first `TICK`: the spec allows it "only between `RESET` and the first `TICK`"
  (`10_state.md` R36). Safe; log 16. -/
  | loadAfterLaunch
  /-- Raised by the loader's reading of a program text line that is not eight binary digits (`30_encoding.md` R82,
  U8 of `93_implementation_defined.md`). Safe; log 23. -/
  | malformedProgramText
  deriving DecidableEq, Repr

/-- What an operation that may stop answers. -/
abbrev Result := Host.Outcome State Fault Refusal

end Sys2Proof.Machine
end

