-- ==== Sys2Proof/Machine/Ops.lean ====
section
/-! DEFINITION. The shared operations: memory, registers, the stack engine, output, raising a fatal fault, entering the
interrupt and returning from it, and the advance of the program counter. -/

namespace Sys2Proof.Machine

/-! ## Memory (`20_memory.md` R50, R51) -/

/-- The canonical form: addresses strictly rising and below 256, no cell listed that reads as an unlisted one. -/
abbrev Memory.wf (m : Memory) : Prop :=
  m.Pairwise (fun c d => c.1 < d.1) ∧ ∀ c ∈ m, c.1 < Config.memSize ∧ c.2 ≠ Config.unlistedByte

/-- The byte listed at key `k`, or the unlisted byte. -/
def Memory.lookup : Memory → Nat → Byte
  | [], _ => Config.unlistedByte
  | c :: m, k => if c.1 = k then c.2 else Memory.lookup m k

/-- Put a pair before the first larger key. -/
def Memory.place (k : Nat) (v : Byte) : Memory → Memory
  | [] => [(k, v)]
  | c :: m => if k < c.1 then (k, v) :: c :: m else c :: Memory.place k v m

/-- `MemRead(addr, 1)` (R51): changes nothing. -/
def Memory.read (m : Memory) (addr : Byte) : Byte := Memory.lookup m addr.toNat

/-- `MemWrite(addr, 1, v)` (R51): cell `addr` becomes `v`, no other cell changes; the canonical form is kept. -/
def Memory.write (m : Memory) (addr v : Byte) : Memory :=
  let rest := m.filter fun c => c.1 ≠ addr.toNat
  if v = Config.unlistedByte then rest else Memory.place addr.toNat v rest

/-! ## Registers (`10_state.md` R20..R29) -/

/-- IM is R5 (R27). -/
def imReg : Fin 8 := 5

/-- IS is R6 (R28). -/
def isReg : Fin 8 := 6

/-- SP is R7 (R29). -/
def spReg : Fin 8 := 7

/-- `x[i]`. -/
def State.reg (s : State) (i : Fin 8) : Byte := s.regs[i]

/-- `x[i] <- v`; the value is a byte, so it is reduced modulo 256 already (R23). -/
def State.setReg (s : State) (i : Fin 8) (v : Byte) : State := { s with regs := s.regs.set i v }

/-- `FL <- v`, all eight bits (R26). -/
def State.setFl (s : State) (v : Byte) : State := { s with fl := v }

/-- Write one byte of memory. -/
def State.store (s : State) (addr v : Byte) : State := { s with mem := s.mem.write addr v }

/-- Read one byte of memory. -/
def State.load (s : State) (addr : Byte) : Byte := s.mem.read addr

/-- `Out(kind, v)`: append one event (R33). -/
def State.emit (s : State) (e : OutEvent) : State := { s with out := s.out ++ [e] }

/-- `pc <- target; jumped <- 1` (`40_cycle.md` R98). -/
def State.jumpTo (s : State) (target : Byte) : State := { s with pc := target, jumped := true }

/-- `RUN <- HALTED` (`45_system.md` R150). -/
def State.halt (s : State) : State := { s with run := .halted }

/-! ## The stack engine (`42_stack.md` R120, R121) -/

/-- `Push(v)`: decrement SP modulo 256, then write `v` at the new SP. -/
def push (v : Byte) (s : State) : State :=
  let s := s.setReg spReg (s.reg spReg - 1)
  s.store (s.reg spReg) v

/-- `Pop()`: the byte at SP, and the state with SP incremented modulo 256. -/
def pop (s : State) : Byte × State :=
  (s.load (s.reg spReg), s.setReg spReg (s.reg spReg + 1))

/-- `x[i] <- Pop()`: the increment first, the register write after it (R123). -/
def popReg (i : Fin 8) (s : State) : State :=
  (pop s).2.setReg i (pop s).1

/-! ## Fatal faults (`60_exceptions.md` R160, R161) -/

/-- `raise F(info)`: RUN, FCAUSE and FINFO, and nothing else; the tick ends. -/
def State.raiseFault (s : State) (cause : FaultCause) (info : Byte) : State :=
  { s with run := .faulted, fcause := cause, finfo := info }

/-! ## The interrupt (`60_exceptions.md` R170..R175) -/

/-- INT_VECTOR: the address of the byte that holds the handler's address (`20_memory.md` R55). -/
def intVector : Byte := 0xF8

/-- The check: bit 0 of IS is set and `IM & IS` is not zero, whole bytes (R172; conflict C5, log 11). -/
def interruptTaken (s : State) : Bool :=
  (s.reg isReg)[0] && (s.reg imReg &&& s.reg isReg) != 0

/-- `StateSave()`: push PC, FL, then R0..R6 in ascending order (`42_stack.md` R124). -/
def stateSave (s : State) : State :=
  let s := push s.fl (push s.pc s)
  [0, 1, 2, 3, 4, 5, 6].foldl (fun (s : State) (i : Fin 8) => push (s.reg i) s) s

/-- Taking the interrupt: clear all of IS, save, then load PC from the vector byte (R173). -/
def enterInterrupt (s : State) : State :=
  let s := stateSave (s.setReg isReg 0)
  { s with pc := s.load intVector }

/-- `StateRestore()`, the return from the interrupt: pop R6..R0 in descending order, FL, PC; mark jumped
(`42_stack.md` R125). -/
def stateRestore (s : State) : State :=
  let s := [6, 5, 4, 3, 2, 1, 0].foldl (fun (s : State) (i : Fin 8) => popReg i s) s
  let s := (pop s).2.setFl (pop s).1
  (pop s).2.jumpTo (pop s).1

/-! ## Advance (`40_cycle.md` R97) -/

/-- Step 5: if the instruction jumped, clear the indicator and keep PC; otherwise `pc <- A + n + 1`. -/
def State.advance (s : State) (m : Mnemonic) : State :=
  if s.jumped then { s with jumped := false }
  else { s with pc := s.pc + BitVec.ofNat 8 (m.nops + 1) }

end Sys2Proof.Machine
end

