-- ==== Sys2Proof/Machine/Flags.lean ====
section
/-! DEFINITION. The flags: what CMP computes and what JEQ and JNE read (`10_state.md` R26). -/

namespace Sys2Proof.Machine

/-- CMP's flags `0b00000LGE` of two bytes, compared as unsigned numbers; exactly one bit is set (`41_alu.md` R112;
unsigned and bits 7:3 written 0: the spec's decisions D7, D8, log 10). -/
def compareFlags (x y : Byte) : Byte :=
  if x.toNat < y.toNat then 0b100 else if x.toNat > y.toNat then 0b010 else 0b001

/-- `FL[0]`, the equal flag; the other bits are read by no instruction. -/
def State.equalFlag (s : State) : Bool := s.fl[0]

end Sys2Proof.Machine
end

