-- ==== Sys2Proof/Machine/Operands.lean ====
section
/-! DEFINITION. Step 4a of the tick for a recognized instruction: the address-range check and the register operands
(`40_cycle.md` R95(2), R95(3)). Both are made before any state is written; the first that fails ends the tick. -/

namespace Sys2Proof.Machine

/-- Whether the instruction transfers control in this state (R95(2), R98). -/
def transfers (m : Mnemonic) (s : State) : Bool :=
  match m with
  | .jmp | .call | .ret | .iret => true
  | .jeq => s.equalFlag
  | .jne => !s.equalFlag
  | .ldi | .prn | .pra | .hlt | .push | .pop | .add | .st | .cmp | .mul => false

/-- `need`: the highest address the instruction requires to exist. CALL's return address, the last operand byte of any
other transfer, the sequential successor otherwise (R95(2)). -/
def neededAddress (m : Mnemonic) (s : State) : Nat :=
  if m = .call then s.pc.toNat + 2
  else if transfers m s then s.pc.toNat + m.nops
  else s.pc.toNat + m.nops + 1

/-- R95(2): `AddressRange` with the opcode byte if the needed address exceeds 255 (the spec's decision D3, log 4). -/
def inRange (m : Mnemonic) (s : State) (k : Result) : Result :=
  if 255 < neededAddress m s then .next (s.raiseFault .addressRange (s.opc.byte m)) else k

/-- A register-index byte: the whole byte is the number, legal 0..7 (`30_encoding.md` R73). -/
def regIndex? (b : Byte) : Option (Fin 8) :=
  if h : b.toNat < 8 then some ⟨b.toNat, h⟩ else none

/-- R95(3): `RegisterIndex` with the operand byte if it exceeds 7 (the spec's decision D5, log 5). -/
def withReg (b : Byte) (s : State) (k : Fin 8 → Result) : Result :=
  match regIndex? b with
  | none => .next (s.raiseFault .registerIndex b)
  | some i => k i

/-- Step 5 after an effect: the tick's next state. -/
def finish (m : Mnemonic) (s : State) : Result := .next (s.advance m)

end Sys2Proof.Machine
end

