-- ==== Sys2Proof/Machine/Alu.lean ====
section
/-! DEFINITION. MUL, ADD, CMP (`41_alu.md` R110..R113). Both registers are read before the write. -/

namespace Sys2Proof.Machine

/-- The low byte of the exact product (R110, R113(c)). -/
def mulByte (x y : Byte) : Byte := BitVec.ofNat 8 (x.toNat * y.toNat)

/-- The exact sum modulo 256 (R111, R113(b)); log 9. -/
def addByte (x y : Byte) : Byte := BitVec.ofNat 8 (x.toNat + y.toNat)

/-- `MUL regA regB`: `x[a] <- (x[a] * x[b]) & 0xFF`; FL unchanged (R110). -/
def execMul (a b : Byte) (s : State) : Result :=
  inRange .mul s <| withReg a s fun ra => withReg b s fun rb =>
    finish .mul (s.setReg ra (mulByte (s.reg ra) (s.reg rb)))

/-- `ADD regA regB`: `x[a] <- (x[a] + x[b]) mod 256`; FL unchanged (R111). -/
def execAdd (a b : Byte) (s : State) : Result :=
  inRange .add s <| withReg a s fun ra => withReg b s fun rb =>
    finish .add (s.setReg ra (addByte (s.reg ra) (s.reg rb)))

/-- `CMP regA regB`: all eight bits of FL; no register is written (R112). -/
def execCmp (a b : Byte) (s : State) : Result :=
  inRange .cmp s <| withReg a s fun ra => withReg b s fun rb =>
    finish .cmp (s.setFl (compareFlags (s.reg ra) (s.reg rb)))

end Sys2Proof.Machine
end

