-- ==== Sys2Proof/Machine/Control.lean ====
section
/-! DEFINITION. JMP, JEQ, JNE, CALL, RET (`44_control.md` R140..R144). -/

namespace Sys2Proof.Machine

/-- `JMP reg`: `pc <- x[a]` (R140). -/
def execJmp (a : Byte) (s : State) : Result :=
  inRange .jmp s <| withReg a s fun ra => finish .jmp (s.jumpTo (s.reg ra))

/-- `JEQ reg`: jump if `FL[0] = 1`; the operand is checked either way (R141). -/
def execJeq (a : Byte) (s : State) : Result :=
  inRange .jeq s <| withReg a s fun ra =>
    finish .jeq (if s.equalFlag then s.jumpTo (s.reg ra) else s)

/-- `JNE reg`: jump if `FL[0] = 0`; the operand is checked either way (R142). -/
def execJne (a : Byte) (s : State) : Result :=
  inRange .jne s <| withReg a s fun ra =>
    finish .jne (if s.equalFlag then s else s.jumpTo (s.reg ra))

/-- `CALL reg`: `Push(A + 2)`, then `pc <- x[a]`, the register read after the push (R143; the spec's decision D19,
log 12). -/
def execCall (a : Byte) (s : State) : Result :=
  inRange .call s <| withReg a s fun ra =>
    let s := push (s.pc + 2) s
    finish .call (s.jumpTo (s.reg ra))

/-- `RET`: `pc <- Pop()` (R144). -/
def execRet (s : State) : Result :=
  inRange .ret s <| finish .ret ((pop s).2.jumpTo (pop s).1)

end Sys2Proof.Machine
end

