-- ==== Sys2Proof/Machine/LoadStore.lean ====
section
/-! DEFINITION. LDI, ST, PRN, PRA (`43_load_store_io.md` R130..R133). -/

namespace Sys2Proof.Machine

/-- `LDI reg value`: `x[a] <- v`; the immediate is used as fetched and never checked (R130). -/
def execLdi (a v : Byte) (s : State) : Result :=
  inRange .ldi s <| withReg a s fun ra => finish .ldi (s.setReg ra v)

/-- `ST regA regB`: `MemWrite(x[a], 1, x[b])` (R131). -/
def execSt (a b : Byte) (s : State) : Result :=
  inRange .st s <| withReg a s fun ra => withReg b s fun rb =>
    finish .st (s.store (s.reg ra) (s.reg rb))

/-- `PRN reg`: `Out(DEC, x[a])` (R132). -/
def execPrn (a : Byte) (s : State) : Result :=
  inRange .prn s <| withReg a s fun ra => finish .prn (s.emit (.dec (s.reg ra)))

/-- `PRA reg`: `Out(CHR, x[a])` (R133). -/
def execPra (a : Byte) (s : State) : Result :=
  inRange .pra s <| withReg a s fun ra => finish .pra (s.emit (.chr (s.reg ra)))

end Sys2Proof.Machine
end

