-- ==== Sys2Proof/Machine/Stack.lean ====
section
/-! DEFINITION. PUSH and POP (`42_stack.md` R122, R123). With R7 as the operand, the written order holds: PUSH reads the
register before the decrement, POP writes it after the increment (log 12). -/

namespace Sys2Proof.Machine

/-- `PUSH reg`: `v <- x[a]; Push(v)` (R122). -/
def execPush (a : Byte) (s : State) : Result :=
  inRange .push s <| withReg a s fun ra => finish .push (push (s.reg ra) s)

/-- `POP reg`: `v <- Pop(); x[a] <- v` (R123). -/
def execPop (a : Byte) (s : State) : Result :=
  inRange .pop s <| withReg a s fun ra => finish .pop (popReg ra s)

end Sys2Proof.Machine
end

