-- ==== Sys2Proof/Machine/System.lean ====
section
/-! DEFINITION. HLT and IRET (`45_system.md` R150, R151). -/

namespace Sys2Proof.Machine

/-- `HLT`: `RUN <- HALTED`; it does not jump, so PC still advances (R150). -/
def execHlt (s : State) : Result :=
  inRange .hlt s <| finish .hlt s.halt

/-- `IRET`: `StateRestore()` (R151). -/
def execIret (s : State) : Result :=
  inRange .iret s <| finish .iret (stateRestore s)

end Sys2Proof.Machine
end

