-- ==== Sys2Proof/Machine/Dispatch.lean ====
section
/-! DEFINITION. Steps 4a(2), 4a(3), 4b and 5 of the tick for a decoded instruction: one arm per instruction
(`40_cycle.md` R95..R97). -/

namespace Sys2Proof.Machine

def exec (i : Instr) (s : State) : Host.Outcome State Fault Refusal :=
  match i with
  | .ldi a v => Sys2Proof.Machine.execLdi a v s
  | .prn a => Sys2Proof.Machine.execPrn a s
  | .pra a => Sys2Proof.Machine.execPra a s
  | .hlt => Sys2Proof.Machine.execHlt s
  | .push a => Sys2Proof.Machine.execPush a s
  | .pop a => Sys2Proof.Machine.execPop a s
  | .call a => Sys2Proof.Machine.execCall a s
  | .ret => Sys2Proof.Machine.execRet s
  | .add a b => Sys2Proof.Machine.execAdd a b s
  | .st a b => Sys2Proof.Machine.execSt a b s
  | .iret => Sys2Proof.Machine.execIret s
  | .jmp a => Sys2Proof.Machine.execJmp a s
  | .cmp a b => Sys2Proof.Machine.execCmp a b s
  | .jeq a => Sys2Proof.Machine.execJeq a s
  | .jne a => Sys2Proof.Machine.execJne a s
  | .mul a b => Sys2Proof.Machine.execMul a b s

end Sys2Proof.Machine
end

