-- ==== Sys2Proof/Machine/Platform.lean ====
section
/-! DEFINITION. The agents beside the core: the interrupt source, the loader, and what the host may do or read
(`10_state.md` R36, `60_exceptions.md` R171, R180). -/

namespace Sys2Proof.Machine

/-! ## The interrupt source -/

/-- The `IRQ` transaction: `x[6] <- x[6] | 0x01`, whatever RUN is (R171; the spec's decision D14, log 13). -/
def irq (s : State) : State := s.setReg isReg (s.reg isReg ||| 1)

/-- Whether the source issues `IRQ` at the boundary before tick number `n`: the timer when INT_PERIOD divides `n`, the
free source as its schedule says (R180; log 13). -/
def IrqSource.asserts (source : IrqSource) (n : Nat) : Bool :=
  match source with
  | .timer period => n % period == 0
  | .free schedule => schedule.headD false

/-- The source past one tick boundary. -/
def IrqSource.past (source : IrqSource) : IrqSource :=
  match source with
  | .timer period => .timer period
  | .free schedule => .free schedule.tail

/-- The interrupt source's action at the boundary before the next tick. -/
def sourceActs (s : State) : State :=
  let asserted := s.irqSource.asserts (s.cycle + 1)
  let s := { s with irqSource := s.irqSource.past }
  if asserted then irq s else s

/-- `CYCLE <- CYCLE + 1` (R180). -/
def countTick (s : State) : State := { s with cycle := s.cycle + 1 }

/-- The boundary before a tick, as the reference loop orders it: the tick is counted, the source acts (R180). -/
def boundary (s : State) : State := countTick (sourceActs s)

/-! ## The host and the loader -/

/-- The `STOP` transaction: no further TICK and no further IRQ; the core does not change (R36; log 15). -/
def stop (s : State) : State := { s with stopped := true }

/-- The `RESET` transaction (`70_reset_and_hazards.md` R190, R191). The interrupt source is the platform's and OPC is
fixed, so both stay (log 15). -/
def resetTo (s : State) : State := { State.reset with irqSource := s.irqSource, opc := s.opc }

/-- The `LOAD(addr, byte)` transaction: only between `RESET` and the first `TICK`, only addresses 0..255 (R36; log 16). -/
def loadByte (addr : Nat) (v : Byte) (s : State) : Result :=
  if s.cycle ≠ 0 then .refused .loadAfterLaunch
  else if addr < Config.memSize then .next (s.store (BitVec.ofNat 8 addr) v)
  else .fault .loadOutsideMemory

/-- Store bytes at consecutive addresses from `addr`, those that lie inside memory; used by `State.withFetchWord`
(log 17). -/
def placeBytes (addr : Nat) : List Byte → State → State
  | [], s => s
  | v :: vs, s =>
    placeBytes (addr + 1) vs (if addr < Config.memSize then s.store (BitVec.ofNat 8 addr) v else s)

/-- RUN's two bits (`10_state.md` R31). -/
def RunState.code : RunState → BitVec 2
  | .running => 0
  | .halted => 1
  | .faulted => 2

/-- FCAUSE's two bits (`10_state.md` R31). -/
def FaultCause.code : FaultCause → BitVec 2
  | .none => 0
  | .unrecognizedOpcode => 1
  | .addressRange => 2
  | .registerIndex => 3

/-- The `STATUS` transaction: RUN, FCAUSE, FINFO (R36). -/
def status (s : State) : BitVec 2 × BitVec 2 × Byte := (s.run.code, s.fcause.code, s.finfo)

end Sys2Proof.Machine
end

