-- ==== Sys2Proof/Machine/Tick.lean ====
section
/-! DEFINITION. The tick (`40_cycle.md` R90..R100) and the transactions of the whole interface (`10_state.md` R36). -/

namespace Sys2Proof.Machine

/-- The bytes at PC+1 and PC+2 that lie inside memory (R57, R93). -/
def operandWindow (s : State) : List Byte :=
  ((List.range 2).filter fun k => s.pc.toNat + 1 + k < Config.memSize).map fun k =>
    s.load (BitVec.ofNat 8 (s.pc.toNat + 1 + k))

/-- Fetch and decode at PC, under the machine's OPC: step 2, step 3 and the recognition of step 4a (`30_encoding.md` R80). -/
def fetch (s : State) : Except DecodeError Instr :=
  match decodeWith s.opc (s.load s.pc) (operandWindow s) with
  | .ok r => .ok r.1
  | .error e => .error e

/-- Steps 2 to 5: fetch, decode, the fault checks, execute, advance. -/
def fetchAndExecute (s : State) : Result :=
  match fetch s with
  | .ok i => exec i s
  | .error (.unrecognized ir) => .next (s.raiseFault .unrecognizedOpcode ir)
  | .error (.operandsMissing ir) => .next (s.raiseFault .addressRange ir)

/-- One tick (R100). While RUN is not RUNNING it changes nothing (R90). -/
def tick (s : State) : Result :=
  if s.run ≠ .running then .next s
  else if interruptTaken s then .next (enterInterrupt s)
  else fetchAndExecute s

/-- Whether the scheduler still issues ticks: RUN = RUNNING and no `STOP` (`60_exceptions.md` R180). -/
def State.live (s : State) : Bool := s.run == .running && !s.stopped

/-- One iteration of the reference loop `Run()`: the boundary, then the tick; nothing once the scheduler has stopped
(R180; log 14). -/
def runOnce (s : State) : Result :=
  if s.live then tick (boundary s) else .next s

/-- What the world outside can do to the machine (`10_state.md` R36). -/
inductive Transaction where
  | reset
  | load (addr : Nat) (v : Byte)
  | tick
  | irq
  | stop
  deriving DecidableEq, Repr

/-- One transaction. `TICK` and `IRQ` are no longer issued after a `STOP` (R36); `TICK` is ignored unless
RUN = RUNNING (R90). -/
def transact (t : Transaction) (s : State) : Result :=
  match t with
  | .reset => .next (resetTo s)
  | .load addr v => loadByte addr v s
  | .tick => if s.live then tick (countTick s) else .next s
  | .irq => .next (if s.stopped then s else irq s)
  | .stop => .next (stop s)

/-- A sequence of transactions, the first that stops ends it. -/
def transactAll : List Transaction → State → Result
  | [], s => .next s
  | t :: ts, s =>
    match transact t s with
    | .next s' => transactAll ts s'
    | .fault r => .fault r
    | .refused r => .refused r

end Sys2Proof.Machine
end

