-- ==== Sys2Proof/Machine/Step.lean ====
section
/-! DEFINITION. The step of the whole system, and the placing of a word where the next step fetches. -/

namespace Sys2Proof.Machine

/-- One step: one iteration of the reference loop (`60_exceptions.md` R180; log 14). -/
def step (s : State) : Host.Outcome State Fault Refusal := runOnce s

/-- The bytes of a table word stored at PC, PC+1, PC+2, those of them that lie inside memory; it stands for the loader
(log 17). The step reads them under the state's OPC, which is the table's in State.reset (log 1). -/
def State.withFetchWord (s : State) (nbits w : Nat) : State :=
  placeBytes s.pc.toNat (tableBytes nbits w) s

end Sys2Proof.Machine
end

