-- ==== Sys2Proof/Machine/Loader.lean ====
section
/-! DEFINITION. The reference loader (`30_encoding.md` R82, `70_reset_and_hazards.md` R193). It is outside the core
(`00_scope.md` R4(a)); it is given so that a run can be started from program text. -/

namespace Sys2Proof.Machine

/-- Write bytes to consecutive addresses from `addr`, by `LOAD` (R193). -/
def loadFrom (addr : Nat) : List Byte → State → Result
  | [], s => .next s
  | v :: vs, s =>
    match loadByte addr v s with
    | .next s' => loadFrom (addr + 1) vs s'
    | .fault r => .fault r
    | .refused r => .refused r

/-- Load a program: consecutive addresses starting at 0 (R193). -/
def loadProgram (bytes : List Byte) (s : State) : Result := loadFrom 0 bytes s

/-- The built-in default program `[LDI R0 8, PRN R0, HLT]` (R82), encoded under a machine's OPC. -/
def defaultProgram (opc : OpcodeMap) : List Byte := [.ldi 0 8, .prn 0, .hlt].flatMap (encodeWith opc)

/-- A binary digit. -/
def binaryDigit? : Char → Option Bool
  | '0' => some false
  | '1' => some true
  | _ => none

/-- One line of program text: `some none` if it is skipped (it does not begin with '0' or '1'), `some (some v)` if it is
eight binary digits, the first the most significant (PRESUMED, G5, log 23), `none` otherwise (U8: refused). -/
def readLine (line : List Char) : Option (Option Byte) :=
  match line.head?.bind binaryDigit? with
  | none => some none
  | some _ =>
    if line.length = 8 then
      (line.mapM binaryDigit?).map fun bits =>
        some (BitVec.ofNat 8 (bits.foldl (fun n bit => 2 * n + bit.toNat) 0))
    else none

/-- The bytes of a program text. -/
def readText (lines : List (List Char)) : Option (List Byte) :=
  (lines.mapM readLine).map fun bytes => bytes.filterMap id

/-- Load a program text, or refuse it by name. -/
def loadText (lines : List (List Char)) (s : State) : Result :=
  match readText lines with
  | some bytes => loadProgram bytes s
  | none => .refused .malformedProgramText

end Sys2Proof.Machine
end

