-- ==== Sys2Proof/Safety.lean ====
section
/-! DEFINITION. What claims about this machine are stated in terms of: the invariant of a tick boundary, the states a fatal
fault leaves, the addresses at which an instruction may stand, and what a frame keeps. -/

namespace Sys2Proof.Machine

/-- What holds at every tick boundary: memory is canonical, the jump indicator is clear (`10_state.md` R30), the fault
record is 0 unless RUN is FAULTED (`10_state.md` R31), and OPC meets its constraints (`30_encoding.md` R75). -/
abbrev State.Inv (s : State) : Prop :=
  s.mem.wf ∧ s.jumped = false ∧
    (s.run ≠ .faulted → s.fcause = .none ∧ s.finfo = 0) ∧ (s.run = .faulted → s.fcause ≠ .none) ∧ s.opc.wf

/-- The state a fatal fault leaves: RUN, FCAUSE and FINFO are written and nothing else (`60_exceptions.md` R161). -/
def State.afterFault (s : State) (cause : FaultCause) (info : Byte) : State :=
  { s with run := .faulted, fcause := cause, finfo := info }

/-- `i` in `s` takes AddressRange, with its opcode byte as information. -/
def RaisesAddressRange (i : Instr) (s : State) : Prop :=
  exec i s = .next (s.afterFault .addressRange (s.opc.byte i.mnemonic))

/-- `i` in `s` takes RegisterIndex, with the offending operand byte as information. -/
def RaisesRegisterIndex (i : Instr) (bad : Byte) (s : State) : Prop :=
  exec i s = .next (s.afterFault .registerIndex bad)

/-- The highest address at which an instruction may stand, by the table of `60_exceptions.md` R163; `equal` is `FL[0]`. -/
def lastAddress (m : Mnemonic) (equal : Bool) : Nat :=
  match m with
  | .ldi | .st | .add | .mul | .cmp => 0xFC
  | .prn | .pra | .push | .pop | .call => 0xFD
  | .hlt | .jmp => 0xFE
  | .jeq => if equal then 0xFE else 0xFD
  | .jne => if equal then 0xFD else 0xFE
  | .ret | .iret => 0xFF

/-- The interrupt condition of `60_exceptions.md` R172, in the registers' own numbers. -/
abbrev InterruptDue (s : State) : Prop :=
  (s.reg 6)[0] = true ∧ s.reg 5 &&& s.reg 6 ≠ 0

/-- The timer's counter, the interrupt source, the stop request and the opcode map are as before. -/
def SamePlatform (s t : State) : Prop :=
  t.cycle = s.cycle ∧ t.irqSource = s.irqSource ∧ t.stopped = s.stopped ∧ t.opc = s.opc

/-- RUN, FCAUSE and FINFO are as before, or a fatal fault was taken and nothing else happened. -/
def SameRunOrFault (s t : State) : Prop :=
  (t.run = s.run ∧ t.fcause = s.fcause ∧ t.finfo = s.finfo) ∨ ∃ cause info, t = s.afterFault cause info

/-- Every cell of memory reads as before. -/
def SameMemory (s t : State) : Prop := ∀ x : Byte, t.load x = s.load x

/-- The state after the `IRQ` transaction: bit 0 of R6 is set (`60_exceptions.md` R171). -/
def State.pended (s : State) : State := s.setReg 6 (s.reg 6 ||| 1)

end Sys2Proof.Machine
end

