-- ==== Sys2Proof/Certificates/Slice0/Obligations.lean ====
section
/-! DEFINITION. The statements about the LS-8 model. A docstring names the rule of spec/ a statement formalises; where a
clause rests on a decision of the spec (92_eei_decisions.md) or on a log entry, it says so. -/

open Sys2Proof Sys2Proof.Machine

/-! ## Reset and the invariant -/

/-- What `RESET` leaves, the table of `10_state.md` section 7. R7 = 0xF4 is the source's; the other registers' zeros are
the spec's decision D9 (log 2), RUN, FCAUSE, FINFO D11 (log 7), and 0x00 in every cell is the model's choice (log 3, D10).
The timer's period 1000 is the nominal value (log 13), the opcode map OPC_DEFAULT is presumed (log 1). -/
def Obligations.ResetLeavesTheTabledState : Prop :=
  State.reset.reg 7 = 0xF4 ∧ (∀ k : Fin 8, k ≠ 7 → State.reset.reg k = 0) ∧
    State.reset.pc = 0 ∧ State.reset.fl = 0 ∧ State.reset.jumped = false ∧
    State.reset.run = .running ∧ State.reset.fcause = .none ∧ State.reset.finfo = 0 ∧
    (∀ x : Byte, State.reset.load x = 0) ∧ State.reset.out = [] ∧ State.reset.cycle = 0 ∧
    State.reset.irqSource = .timer 1000 ∧ State.reset.stopped = false ∧ State.reset.opc = opcDefault

/-- The state after reset meets the invariant of a tick boundary. -/
def Obligations.ResetMeetsTheBoundaryInvariant : Prop := State.reset.Inv

/-- Every step keeps the invariant: canonical memory, a clear jump indicator (`10_state.md` R30), a fault record that is 0
exactly while RUN is not FAULTED (R31), an opcode map that meets `30_encoding.md` R75. -/
def Obligations.EveryStepKeepsTheBoundaryInvariant : Prop :=
  ∀ s t : State, s.Inv → step s = .next t → t.Inv

/-- Every sequence of transactions keeps the invariant: whatever the interrupt source, the loader, the scheduler and the
host do and in whatever order (`00_scope.md` R6, `10_state.md` R36). -/
def Obligations.EveryTransactionSequenceKeepsTheInvariant : Prop :=
  ∀ (ts : List Transaction) (s t : State), s.Inv → transactAll ts s = .next t → t.Inv

/-! ## Registers and memory -/

/-- `10_state.md` R20: eight independent cells; each reads as what was last written to it, after any sequence of register
writes, and as before if none named it. -/
def Obligations.RegistersReadAsLastWritten : Prop :=
  ∀ (s : State) (writes : List (Fin 8 × Byte)) (k : Fin 8),
    (writes.foldl (fun s w => s.setReg w.1 w.2) s).reg k =
      (((writes.filter fun w => w.1 == k).getLast?).map Prod.snd).getD (s.reg k)

/-- `20_memory.md` R51: after any sequence of writes, a read gives the byte most recently written to that cell, or the byte
it held at first; a write changes no other cell and nothing but memory, and every cell is readable and writable. -/
def Obligations.CellsReadAsMostRecentlyWritten : Prop :=
  ∀ (s : State) (writes : List (Byte × Byte)) (x : Byte),
    let t := writes.foldl (fun s w => s.store w.1 w.2) s
    t.load x = (((writes.filter fun w => w.1 == x).getLast?).map Prod.snd).getD (s.load x) ∧
      t = { s with mem := t.mem }

/-- Two canonical memories in which every cell reads the same are the same data, so equal states are equal machines. -/
def Obligations.CanonicalMemoriesThatReadAlikeAreEqual : Prop :=
  ∀ m n : Memory, m.wf → n.wf → (∀ x : Byte, m.read x = n.read x) → m = n

/-! ## Encoding and decoding -/

/-- For every opcode map that meets R75 (`30_encoding.md`) and every instruction, decoding the encoded instruction, whatever
bytes follow it, gives it back and leaves those bytes. -/
def Obligations.DecodingAnEncodedInstructionGivesItBack : Prop :=
  ∀ (opc : OpcodeMap) (i : Instr) (rest : List Byte), opc.wf →
    ∃ b0 operands, encodeWith opc i = b0 :: operands ∧ decodeWith opc b0 (operands ++ rest) = .ok (i, rest)

/-- The other direction: bytes that decode to an instruction are its encoding followed by what was left over. -/
def Obligations.DecodedBytesAreTheEncoding : Prop :=
  ∀ (opc : OpcodeMap) (b0 : Byte) (rest left : List Byte) (i : Instr),
    decodeWith opc b0 rest = .ok (i, left) → encodeWith opc i ++ left = b0 :: rest

/-- Decoding is total, and what it answers is decided by the opcode byte and the number of bytes after it
(`30_encoding.md` R80): unrecognized, operands missing, or an instruction. -/
def Obligations.DecodingIsExactlyOneOfThree : Prop :=
  ∀ (opc : OpcodeMap) (b0 : Byte) (rest : List Byte), opc.wf →
    (decodeWith opc b0 rest = .error (.unrecognized b0) ↔ ∀ m, opc.byte m ≠ b0) ∧
    (decodeWith opc b0 rest = .error (.operandsMissing b0) ↔ ∃ m, opc.byte m = b0 ∧ rest.length < m.nops) ∧
    ((∃ r, decodeWith opc b0 rest = .ok r) ↔ ∃ m, opc.byte m = b0 ∧ m.nops ≤ rest.length)

/-- `30_encoding.md`, instruction length: it is bits 7:6 of the opcode byte plus one, and those bits are 3 in no
instruction. -/
def Obligations.LengthComesFromTheOpcodeBits : Prop :=
  ∀ (opc : OpcodeMap) (b0 : Byte) (rest : List Byte), opc.wf →
    (∀ i left, decodeWith opc b0 rest = .ok (i, left) → left.length + b0.toNat / 64 = rest.length) ∧
    (b0.toNat / 64 = 3 → decodeWith opc b0 rest = .error (.unrecognized b0))

/-- Words written out from the spec's encodings decode to their instructions: some of `95_test_vectors.md` section 2.1, under
OPC_DEFAULT (log 1). -/
def Obligations.WrittenOutWordsDecode : Prop :=
  decode 0b10011001 [0b00000011, 0b11111111] = .ok (.ldi 3 255, []) ∧
    decode 0b01000011 [0b00000000] = .ok (.prn 0, []) ∧
    decode 0b00000001 [] = .ok (.hlt, []) ∧
    decode 0b10101010 [0b00000000, 0b00000001] = .ok (.mul 0 1, []) ∧
    decode 0b01001000 [0b00000010] = .ok (.call 2, []) ∧
    decode 0b00000000 [] = .error (.unrecognized 0) ∧
    decode 0b11000001 [0, 0] = .error (.unrecognized 0xC1) ∧
    decode 0b01000001 [0] = .error (.unrecognized 0x41)

/-! ## The tick -/

/-- Where the bytes of an instruction stand at PC inside memory, encoded under the machine's opcode map, whichever admissible map
that is (`30_encoding.md` R75), the fetch gives that instruction. -/
def Obligations.TheFetchReadsTheBytesAtPc : Prop :=
  ∀ (s : State) (i : Instr), s.opc.wf → s.pc.toNat + i.operandBytes.length ≤ 255 →
    s.load s.pc = s.opc.byte i.mnemonic →
    (∀ (k : Nat) (h : k < i.operandBytes.length),
      s.load (BitVec.ofNat 8 (s.pc.toNat + 1 + k)) = i.operandBytes[k]) →
    fetch s = .ok i

/-- A step runs the decoded instruction. While the scheduler issues ticks and no interrupt is due after the boundary, a step
is `exec` of the fetched instruction at the boundary state; the boundary counts the tick, moves the interrupt source on, may
set bit 0 of R6, and changes nothing else. That a step is one turn of the reference loop is the spec's decision D15 and the
model's choice (log 14), the form of the interrupt source the model's (log 13). -/
def Obligations.AStepRunsTheDecodedInstruction : Prop :=
  ∀ (s : State) (i : Instr), s.run = .running → s.stopped = false → ¬ InterruptDue (boundary s) →
    fetch s = .ok i →
    step s = exec i (boundary s) ∧
      (boundary s = { s with cycle := s.cycle + 1, irqSource := s.irqSource.past } ∨
        boundary s = { s with cycle := s.cycle + 1, irqSource := s.irqSource.past,
                              regs := s.regs.set 6 (s.reg 6 ||| 1) })

/-- No step and no instruction stops the model: each answers a next state, whatever the state. The hardware's fatal faults
are next states with RUN = FAULTED (log 8). -/
def Obligations.EveryStepAndInstructionAnswersANextState : Prop :=
  (∀ s : State, ∃ t, step s = .next t) ∧ ∀ (i : Instr) (s : State), ∃ t, exec i s = .next t

/-- A TICK while RUN is not RUNNING changes nothing, and neither does a step. -/
def Obligations.NothingHappensOnceNotRunning : Prop :=
  ∀ s : State, s.run ≠ .running → tick s = .next s ∧ transact .tick s = .next s ∧ step s = .next s

/-- HALTED and FAULTED are absorbing (`10_state.md` R31): without a RESET and a LOAD, no sequence of transactions changes
anything but bit 0 of R6, which may become set, and the stop request. -/
def Obligations.OnlyResetLeavesAStoppedRun : Prop :=
  ∀ (ts : List Transaction) (s t : State), s.run ≠ .running →
    (∀ x ∈ ts, x = .tick ∨ x = .irq ∨ x = .stop) → transactAll ts s = .next t →
    t = { s with regs := t.regs, stopped := t.stopped } ∧
      (∀ k : Fin 8, k ≠ 6 → t.reg k = s.reg k) ∧ (t.reg 6 = s.reg 6 ∨ t.reg 6 = s.reg 6 ||| 1)

/-! ## The fatal faults -/

/-- `60_exceptions.md` section 1: a tick that fetches a byte outside the image of OPC raises UnrecognizedOpcode with the byte,
wherever it lies and whatever follows it. Under OPC_DEFAULT, which is presumed (log 1), the recognized bytes are the sixteen
named. -/
def Obligations.UnrecognizedOpcodeIsRaised : Prop :=
  (∀ s : State, s.run = .running → ¬ InterruptDue s → (∀ m, s.opc.byte m ≠ s.load s.pc) →
    tick s = .next (s.afterFault .unrecognizedOpcode (s.load s.pc))) ∧
  (∀ b : Byte, (∀ m, opcDefault.byte m ≠ b) ↔
    b ∉ [0x01, 0x09, 0x0B, 0x42, 0x43, 0x48, 0x4C, 0x4D, 0x50, 0x51, 0x52, 0x99, 0x9A, 0xA0, 0xA8, 0xAA])

/-- A tick on a recognized opcode raises AddressRange, with the opcode byte, exactly at the addresses of the table of
`60_exceptions.md` section 1, before its operands are examined. The policy is the spec's decision D3 (log 4), the priority
D12 (log 6). -/
def Obligations.AddressRangeIsRaisedExactlyAsTabled : Prop :=
  ∀ (s : State) (m : Mnemonic), s.opc.wf → s.run = .running → ¬ InterruptDue s → s.load s.pc = s.opc.byte m →
    (tick s = .next (s.afterFault .addressRange (s.opc.byte m)) ↔ lastAddress m (s.fl[0]) < s.pc.toNat)

/-- A tick on an instruction that stands where it may raises RegisterIndex exactly when a register-index byte exceeds 7, with
the first such byte, whether or not the instruction would read the register. The policy is the spec's decision D5 (log 5),
the order operandA then operandB its table's. -/
def Obligations.RegisterIndexIsRaisedExactlyOnABadOperand : Prop :=
  ∀ (s : State) (i : Instr), s.run = .running → ¬ InterruptDue s → fetch s = .ok i →
    s.pc.toNat ≤ lastAddress i.mnemonic (s.fl[0]) →
    (∀ bad, i.registerBytes.find? (fun b => 8 ≤ b.toNat) = some bad →
      tick s = .next (s.afterFault .registerIndex bad)) ∧
    (i.wf = true → ∀ t, tick s = .next t → t.run ≠ .faulted)

/-- Faults are precise: a tick that leaves RUN = FAULTED has changed RUN, FCAUSE and FINFO and nothing else, PC still holds
the address of the opcode byte, and FINFO is the opcode byte unless the cause is RegisterIndex. The spec's decision D13
(log 6). -/
def Obligations.FaultsArePrecise : Prop :=
  ∀ s t : State, s.run = .running → tick s = .next t → t.run = .faulted →
    t = s.afterFault t.fcause t.finfo ∧ t.fcause ≠ .none ∧
      (t.fcause ≠ .registerIndex → t.finfo = s.load s.pc) ∧ (t.fcause = .registerIndex → 8 ≤ t.finfo.toNat)

/-! ## The interrupt -/

/-- `60_exceptions.md` R172: at the start of a tick the interrupt is taken exactly when bit 0 of IS is set and IM and IS have
a common bit; otherwise the tick fetches. -/
def Obligations.TheInterruptIsTakenExactlyWhenDue : Prop :=
  ∀ s : State, s.run = .running →
    (InterruptDue s → tick s = .next (enterInterrupt s)) ∧ (¬ InterruptDue s → tick s = fetchAndExecute s)

/-- `60_exceptions.md` R173, with the frame of `42_stack.md` R124: R6 is cleared before the save, PC, FL and R0..R6 are
pushed, R7 falls by nine, and PC is the byte that cell 0xF8 holds after the pushes; nothing else changes. -/
def Obligations.InterruptEntrySavesNineBytesAndLoadsTheVector : Prop :=
  ∀ s : State, s.run = .running → InterruptDue s →
    ∃ t, tick s = .next t ∧ t.reg 6 = 0 ∧ t.reg 7 = s.reg 7 - 9 ∧
      (∀ k : Fin 8, k ≠ 6 → k ≠ 7 → t.reg k = s.reg k) ∧
      t.load (s.reg 7 - 1) = s.pc ∧ t.load (s.reg 7 - 2) = s.fl ∧
      t.load (s.reg 7 - 3) = s.reg 0 ∧ t.load (s.reg 7 - 4) = s.reg 1 ∧ t.load (s.reg 7 - 5) = s.reg 2 ∧
      t.load (s.reg 7 - 6) = s.reg 3 ∧ t.load (s.reg 7 - 7) = s.reg 4 ∧ t.load (s.reg 7 - 8) = s.reg 5 ∧
      t.load (s.reg 7 - 9) = 0 ∧
      (∀ x : Byte, 9 < (s.reg 7 - x).toNat ∨ x = s.reg 7 → t.load x = s.load x) ∧
      t.pc = t.load 0xF8 ∧ t = { s with regs := t.regs, mem := t.mem, pc := t.pc }

/-- `60_exceptions.md` R175: if R7 at IRET equals R7 just after the entry and the nine cells are untouched, then after IRET
R0..R5, FL and PC are as just before the entry, R6 is 0x00 and R7 is as just before the entry. -/
def Obligations.IretUndoesAnInterruptEntry : Prop :=
  ∀ s t u : State, s.run = .running → InterruptDue s → tick s = .next t →
    u.reg 7 = t.reg 7 → (∀ k : Nat, k < 9 → u.load (t.reg 7 + BitVec.ofNat 8 k) = t.load (t.reg 7 + BitVec.ofNat 8 k)) →
    ∃ r, exec .iret u = .next r ∧ (∀ k : Fin 8, k ≠ 6 → r.reg k = s.reg k) ∧ r.reg 6 = 0 ∧
      r.fl = s.fl ∧ r.pc = s.pc

/-- The `IRQ` transaction sets bit 0 of R6 and changes nothing else, and asserting twice is asserting once. The OR is the
spec's decision D14 (log 13); after a `STOP` no IRQ is issued (log 15). -/
def Obligations.AssertionsSetThePendingBitAndMerge : Prop :=
  ∀ s : State, s.stopped = false →
    transact .irq s = .next s.pended ∧ transactAll [.irq, .irq] s = .next s.pended ∧
      (s.pended.reg 6)[0] = true ∧ (∀ n, n ≠ 0 → (s.pended.reg 6).getLsbD n = (s.reg 6).getLsbD n)

/-- `60_exceptions.md` R177: entry leaves IM as it was and clears IS, so the tick after an entry takes no interrupt unless
the line is asserted again, and then, IM bit 0 being set, it takes one. -/
def Obligations.AnInterruptNestsOnlyWhenAssertedAgain : Prop :=
  ∀ s t : State, s.run = .running → InterruptDue s → tick s = .next t →
    ¬ InterruptDue t ∧ ((s.reg 5)[0] = true → tick t.pended = .next (enterInterrupt t.pended))

/-- A step is one turn of the reference loop: the tick is counted, the timer asserts the interrupt when INT_PERIOD divides
the count, the tick is performed. The loop is the spec's decision D15 (log 13, log 14). -/
def Obligations.TheReferenceTimerAssertsEveryPeriod : Prop :=
  ∀ (s : State) (period : Nat), s.run = .running → s.stopped = false → s.irqSource = .timer period →
    (period ∣ s.cycle + 1 → step s = tick { s.pended with cycle := s.cycle + 1 }) ∧
    (¬ period ∣ s.cycle + 1 → step s = tick { s with cycle := s.cycle + 1 })

/-! ## Arithmetic and compare -/

/-- `41_alu.md` R110: `MUL regA regB`. The fault clauses are the rule's own (the spec's D3 and D5; logs 4, 5). -/
def Obligations.MulKeepsTheLowByteOfTheProduct : Prop :=
  ∀ (s : State) (a b : Byte), s.jumped = false →
    encodeWith s.opc (.mul a b) = [s.opc.byte .mul, a, b] ∧
    (252 < s.pc.toNat → RaisesAddressRange (.mul a b) s) ∧
    (s.pc.toNat ≤ 252 → 8 ≤ a.toNat → RaisesRegisterIndex (.mul a b) a s) ∧
    (s.pc.toNat ≤ 252 → a.toNat < 8 → 8 ≤ b.toNat → RaisesRegisterIndex (.mul a b) b s) ∧
    ∀ (_ : s.pc.toNat ≤ 252) (ha : a.toNat < 8) (hb : b.toNat < 8),
      exec (.mul a b) s = .next { s with
        regs := s.regs.set a.toNat (BitVec.ofNat 8 (s.regs[a.toNat].toNat * s.regs[b.toNat].toNat % 256))
        pc := s.pc + 3 }

/-- `41_alu.md`, ADD: `x[a] <- (x[a] + x[b]) mod 256`. The reduction modulo 256 is the spec's decision D6 (log 9), the fault
clauses D3 and D5 (logs 4, 5). -/
def Obligations.AddWrapsModulo256 : Prop :=
  ∀ (s : State) (a b : Byte), s.jumped = false →
    encodeWith s.opc (.add a b) = [s.opc.byte .add, a, b] ∧
    (252 < s.pc.toNat → RaisesAddressRange (.add a b) s) ∧
    (s.pc.toNat ≤ 252 → 8 ≤ a.toNat → RaisesRegisterIndex (.add a b) a s) ∧
    (s.pc.toNat ≤ 252 → a.toNat < 8 → 8 ≤ b.toNat → RaisesRegisterIndex (.add a b) b s) ∧
    ∀ (_ : s.pc.toNat ≤ 252) (ha : a.toNat < 8) (hb : b.toNat < 8),
      exec (.add a b) s = .next { s with
        regs := s.regs.set a.toNat (BitVec.ofNat 8 ((s.regs[a.toNat].toNat + s.regs[b.toNat].toNat) % 256))
        pc := s.pc + 3 }

/-- `41_alu.md`, CMP: FL becomes 0b100, 0b010 or 0b001 as the first operand is less, greater or equal, compared unsigned.
Unsigned is the spec's decision D7, bits 7:3 written 0 its D8 (log 10). -/
def Obligations.CmpWritesExactlyOneFlag : Prop :=
  ∀ (s : State) (a b : Byte), s.jumped = false →
    encodeWith s.opc (.cmp a b) = [s.opc.byte .cmp, a, b] ∧
    (252 < s.pc.toNat → RaisesAddressRange (.cmp a b) s) ∧
    (s.pc.toNat ≤ 252 → 8 ≤ a.toNat → RaisesRegisterIndex (.cmp a b) a s) ∧
    (s.pc.toNat ≤ 252 → a.toNat < 8 → 8 ≤ b.toNat → RaisesRegisterIndex (.cmp a b) b s) ∧
    ∀ (_ : s.pc.toNat ≤ 252) (ha : a.toNat < 8) (hb : b.toNat < 8),
      ∃ flags : Byte, exec (.cmp a b) s = .next { s with fl := flags, pc := s.pc + 3 } ∧
        (s.regs[a.toNat].toNat < s.regs[b.toNat].toNat → flags = 0b100) ∧
        (s.regs[b.toNat].toNat < s.regs[a.toNat].toNat → flags = 0b010) ∧
        (s.regs[a.toNat] = s.regs[b.toNat] → flags = 0b001)

/-! ## Load, store, output -/

/-- `43_load_store_io.md` R130: `LDI reg value`. The fault clauses are the rule's own (the spec's D3 and D5; logs 4, 5). -/
def Obligations.LdiLoadsTheImmediate : Prop :=
  ∀ (s : State) (a v : Byte), s.jumped = false →
    encodeWith s.opc (.ldi a v) = [s.opc.byte .ldi, a, v] ∧
    (252 < s.pc.toNat → RaisesAddressRange (.ldi a v) s) ∧
    (s.pc.toNat ≤ 252 → 8 ≤ a.toNat → RaisesRegisterIndex (.ldi a v) a s) ∧
    ∀ (_ : s.pc.toNat ≤ 252) (ha : a.toNat < 8),
      exec (.ldi a v) s = .next { s with regs := s.regs.set a.toNat v, pc := s.pc + 3 }

/-- `43_load_store_io.md` R131: `ST regA regB`. The fault clauses are the rule's own (the spec's D3 and D5; logs 4, 5). -/
def Obligations.StStoresOneByte : Prop :=
  ∀ (s : State) (a b : Byte), s.jumped = false →
    encodeWith s.opc (.st a b) = [s.opc.byte .st, a, b] ∧
    (252 < s.pc.toNat → RaisesAddressRange (.st a b) s) ∧
    (s.pc.toNat ≤ 252 → 8 ≤ a.toNat → RaisesRegisterIndex (.st a b) a s) ∧
    (s.pc.toNat ≤ 252 → a.toNat < 8 → 8 ≤ b.toNat → RaisesRegisterIndex (.st a b) b s) ∧
    ∀ (_ : s.pc.toNat ≤ 252) (ha : a.toNat < 8) (hb : b.toNat < 8),
      ∃ t, exec (.st a b) s = .next t ∧ t = { s with mem := t.mem, pc := s.pc + 3 } ∧
        t.load s.regs[a.toNat] = s.regs[b.toNat] ∧ ∀ x, x ≠ s.regs[a.toNat] → t.load x = s.load x

/-- `43_load_store_io.md` R132: `PRN reg`. The fault clauses are the rule's own (the spec's D3 and D5; logs 4, 5). -/
def Obligations.PrnAppendsADecimalEvent : Prop :=
  ∀ (s : State) (a : Byte), s.jumped = false →
    encodeWith s.opc (.prn a) = [s.opc.byte .prn, a] ∧
    (253 < s.pc.toNat → RaisesAddressRange (.prn a) s) ∧
    (s.pc.toNat ≤ 253 → 8 ≤ a.toNat → RaisesRegisterIndex (.prn a) a s) ∧
    ∀ (_ : s.pc.toNat ≤ 253) (ha : a.toNat < 8),
      exec (.prn a) s = .next { s with out := s.out ++ [.dec s.regs[a.toNat]], pc := s.pc + 2 }

/-- `43_load_store_io.md` R133: `PRA reg`. The fault clauses are the rule's own (the spec's D3 and D5; logs 4, 5). -/
def Obligations.PraAppendsACharacterEvent : Prop :=
  ∀ (s : State) (a : Byte), s.jumped = false →
    encodeWith s.opc (.pra a) = [s.opc.byte .pra, a] ∧
    (253 < s.pc.toNat → RaisesAddressRange (.pra a) s) ∧
    (s.pc.toNat ≤ 253 → 8 ≤ a.toNat → RaisesRegisterIndex (.pra a) a s) ∧
    ∀ (_ : s.pc.toNat ≤ 253) (ha : a.toNat < 8),
      exec (.pra a) s = .next { s with out := s.out ++ [.chr s.regs[a.toNat]], pc := s.pc + 2 }

/-! ## The stack -/

/-- `42_stack.md`, PUSH: the register is read before the decrement, R7 included. For R7 that is an inference of the spec from
the written order (D19, log 12); the fault clauses are its D3 and D5 (logs 4, 5). -/
def Obligations.PushStoresBelowTheStackPointer : Prop :=
  ∀ (s : State) (a : Byte), s.jumped = false →
    encodeWith s.opc (.push a) = [s.opc.byte .push, a] ∧
    (253 < s.pc.toNat → RaisesAddressRange (.push a) s) ∧
    (s.pc.toNat ≤ 253 → 8 ≤ a.toNat → RaisesRegisterIndex (.push a) a s) ∧
    ∀ (_ : s.pc.toNat ≤ 253) (ha : a.toNat < 8),
      ∃ t, exec (.push a) s = .next t ∧
        t = { s with regs := s.regs.set 7 (s.reg 7 - 1), mem := t.mem, pc := s.pc + 2 } ∧
        t.load (s.reg 7 - 1) = s.regs[a.toNat] ∧ ∀ x, x ≠ s.reg 7 - 1 → t.load x = s.load x

/-- `42_stack.md`, POP: the register is written after the increment, R7 included. For R7 that is an inference of the spec from
the written order (D19, log 12); the fault clauses are its D3 and D5 (logs 4, 5). -/
def Obligations.PopLoadsFromTheStackPointer : Prop :=
  ∀ (s : State) (a : Byte), s.jumped = false →
    encodeWith s.opc (.pop a) = [s.opc.byte .pop, a] ∧
    (253 < s.pc.toNat → RaisesAddressRange (.pop a) s) ∧
    (s.pc.toNat ≤ 253 → 8 ≤ a.toNat → RaisesRegisterIndex (.pop a) a s) ∧
    ∀ (_ : s.pc.toNat ≤ 253) (ha : a.toNat < 8),
      exec (.pop a) s = .next { s with
        regs := (s.regs.set 7 (s.reg 7 + 1)).set a.toNat (s.load (s.reg 7)), pc := s.pc + 2 }

/-! ## Control transfer -/

/-- `44_control.md` R140: `JMP reg`. The fault clauses are the rule's own (the spec's D3 and D5; logs 4, 5). -/
def Obligations.JmpLoadsPc : Prop :=
  ∀ (s : State) (a : Byte), s.jumped = false →
    encodeWith s.opc (.jmp a) = [s.opc.byte .jmp, a] ∧
    (s.pc.toNat = 255 → RaisesAddressRange (.jmp a) s) ∧
    (s.pc.toNat ≤ 254 → 8 ≤ a.toNat → RaisesRegisterIndex (.jmp a) a s) ∧
    ∀ (_ : s.pc.toNat ≤ 254) (ha : a.toNat < 8), exec (.jmp a) s = .next { s with pc := s.regs[a.toNat] }

/-- `44_control.md` R141: `JEQ reg`, taken when bit 0 of FL is 1; the operand is checked either way. The fault
clauses are the rule's own (the spec's D3 and D5; logs 4, 5). -/
def Obligations.JeqJumpsIfEqual : Prop :=
  ∀ (s : State) (a : Byte), s.jumped = false →
    encodeWith s.opc (.jeq a) = [s.opc.byte .jeq, a] ∧
    (s.fl[0] = true →
      (s.pc.toNat = 255 → RaisesAddressRange (.jeq a) s) ∧
      (s.pc.toNat ≤ 254 → 8 ≤ a.toNat → RaisesRegisterIndex (.jeq a) a s) ∧
      ∀ (_ : s.pc.toNat ≤ 254) (ha : a.toNat < 8), exec (.jeq a) s = .next { s with pc := s.regs[a.toNat] }) ∧
    (s.fl[0] = false →
      (253 < s.pc.toNat → RaisesAddressRange (.jeq a) s) ∧
      (s.pc.toNat ≤ 253 → 8 ≤ a.toNat → RaisesRegisterIndex (.jeq a) a s) ∧
      (s.pc.toNat ≤ 253 → a.toNat < 8 → exec (.jeq a) s = .next { s with pc := s.pc + 2 }))

/-- `44_control.md` R142: `JNE reg`, taken when bit 0 of FL is 0; the operand is checked either way. The fault
clauses are the rule's own (the spec's D3 and D5; logs 4, 5). -/
def Obligations.JneJumpsIfNotEqual : Prop :=
  ∀ (s : State) (a : Byte), s.jumped = false →
    encodeWith s.opc (.jne a) = [s.opc.byte .jne, a] ∧
    (s.fl[0] = false →
      (s.pc.toNat = 255 → RaisesAddressRange (.jne a) s) ∧
      (s.pc.toNat ≤ 254 → 8 ≤ a.toNat → RaisesRegisterIndex (.jne a) a s) ∧
      ∀ (_ : s.pc.toNat ≤ 254) (ha : a.toNat < 8), exec (.jne a) s = .next { s with pc := s.regs[a.toNat] }) ∧
    (s.fl[0] = true →
      (253 < s.pc.toNat → RaisesAddressRange (.jne a) s) ∧
      (s.pc.toNat ≤ 253 → 8 ≤ a.toNat → RaisesRegisterIndex (.jne a) a s) ∧
      (s.pc.toNat ≤ 253 → a.toNat < 8 → exec (.jne a) s = .next { s with pc := s.pc + 2 }))

/-- `44_control.md`, CALL: the return address A + 2 is pushed, then the register is read, so `CALL R7` jumps to the new R7.
That order is the spec's decision D19 (log 12); the range clause is its D3 (log 4). -/
def Obligations.CallPushesTheReturnAddress : Prop :=
  ∀ (s : State) (a : Byte), s.jumped = false →
    encodeWith s.opc (.call a) = [s.opc.byte .call, a] ∧
    (253 < s.pc.toNat → RaisesAddressRange (.call a) s) ∧
    (s.pc.toNat ≤ 253 → 8 ≤ a.toNat → RaisesRegisterIndex (.call a) a s) ∧
    ∀ (_ : s.pc.toNat ≤ 253) (ha : a.toNat < 8),
      ∃ t, exec (.call a) s = .next t ∧
        t = { s with regs := s.regs.set 7 (s.reg 7 - 1), mem := t.mem,
                     pc := (s.regs.set 7 (s.reg 7 - 1))[a.toNat] } ∧
        t.load (s.reg 7 - 1) = s.pc + 2 ∧ ∀ x, x ≠ s.reg 7 - 1 → t.load x = s.load x

/-- `44_control.md` R144: `RET`, legal at every address. -/
def Obligations.RetPopsPc : Prop :=
  ∀ s : State, s.jumped = false →
    encodeWith s.opc .ret = [s.opc.byte .ret] ∧
    exec .ret s = .next { s with regs := s.regs.set 7 (s.reg 7 + 1), pc := s.load (s.reg 7) }

/-! ## System instructions -/

/-- `45_system.md`, HLT: RUN becomes HALTED and PC advances by 1; at 0xFF it raises AddressRange instead, the spec's decision
D3 applied uniformly (log 4). -/
def Obligations.HltHaltsAndAdvances : Prop :=
  ∀ s : State, s.jumped = false →
    encodeWith s.opc .hlt = [s.opc.byte .hlt] ∧
    (s.pc.toNat = 255 → RaisesAddressRange .hlt s) ∧
    (s.pc.toNat ≤ 254 → exec .hlt s = .next { s with run := .halted, pc := s.pc + 1 })

/-- `45_system.md` R151: `IRET` pops R6, R5, .., R0, FL and PC from nine ascending cells; R7 rises by nine; it is legal at
every address and checks nothing. -/
def Obligations.IretPopsNineBytes : Prop :=
  ∀ s : State, s.jumped = false →
    encodeWith s.opc .iret = [s.opc.byte .iret] ∧
    exec .iret s = .next { s with
      regs := #v[s.load (s.reg 7 + 6), s.load (s.reg 7 + 5), s.load (s.reg 7 + 4), s.load (s.reg 7 + 3),
                 s.load (s.reg 7 + 2), s.load (s.reg 7 + 1), s.load (s.reg 7), s.reg 7 + 9]
      fl := s.load (s.reg 7 + 7)
      pc := s.load (s.reg 7 + 8) }

/-! ## Frames -/

/-- LDI, ADD and MUL change no register but operandA's, no flag, no cell and no output. -/
def Obligations.RegisterWritersChangeOnlyTheirRegister : Prop :=
  ∀ (s t : State) (a b : Byte) (i : Instr), i = .ldi a b ∨ i = .add a b ∨ i = .mul a b → exec i s = .next t →
    (∀ k : Fin 8, k.val ≠ a.toNat → t.reg k = s.reg k) ∧ t.fl = s.fl ∧ SameMemory s t ∧ t.out = s.out ∧
      SameRunOrFault s t ∧ SamePlatform s t

/-- CMP, PRN, PRA, HLT, JMP, JEQ and JNE change no register and no cell; FL changes only by CMP, the output only by PRN and
PRA, and RUN only by HLT or a fault. -/
def Obligations.NonStoringFormsChangeNoRegisterAndNoCell : Prop :=
  ∀ (s t : State) (a b : Byte) (i : Instr),
    i = .cmp a b ∨ i = .prn a ∨ i = .pra a ∨ i = .hlt ∨ i = .jmp a ∨ i = .jeq a ∨ i = .jne a → exec i s = .next t →
    (∀ k : Fin 8, t.reg k = s.reg k) ∧ SameMemory s t ∧ (i ≠ .cmp a b → t.fl = s.fl) ∧
      (i ≠ .prn a → i ≠ .pra a → t.out = s.out) ∧
      (SameRunOrFault s t ∨ i = .hlt ∧ t.run = .halted ∧ t.fcause = s.fcause ∧ t.finfo = s.finfo) ∧ SamePlatform s t

/-- ST changes no register; PUSH and CALL change R7 only. ST stores to the address in operandA's register, PUSH and CALL to
the cell below R7: every other cell reads as before, and every cell does if ST's operandA names no register. -/
def Obligations.StoringFormsChangeOnlyTheirCell : Prop :=
  ∀ (s t : State) (a b : Byte),
    (exec (.st a b) s = .next t →
      (∀ k : Fin 8, t.reg k = s.reg k) ∧
      (∀ (ha : a.toNat < 8) (x : Byte), x ≠ s.reg ⟨a.toNat, ha⟩ → t.load x = s.load x) ∧
      (8 ≤ a.toNat → SameMemory s t) ∧
      t.fl = s.fl ∧ t.out = s.out ∧ SameRunOrFault s t ∧ SamePlatform s t) ∧
    (∀ i : Instr, i = .push a ∨ i = .call a → exec i s = .next t →
      (∀ k : Fin 8, k ≠ 7 → t.reg k = s.reg k) ∧
      (∀ x : Byte, x ≠ s.reg 7 - 1 → t.load x = s.load x) ∧
      t.fl = s.fl ∧ t.out = s.out ∧ SameRunOrFault s t ∧ SamePlatform s t)

/-- POP, RET and IRET change no cell and no output: POP writes operandA's register and R7, RET R7 only, and of the three
only IRET writes FL or another register. -/
def Obligations.PoppingFormsChangeNoCell : Prop :=
  ∀ (s t : State) (a : Byte) (i : Instr), i = .pop a ∨ i = .ret ∨ i = .iret → exec i s = .next t →
    SameMemory s t ∧ t.out = s.out ∧ SameRunOrFault s t ∧ SamePlatform s t ∧
      (i ≠ .iret → t.fl = s.fl ∧ ∀ k : Fin 8, k ≠ 7 → (i = .ret ∨ k.val ≠ a.toNat) → t.reg k = s.reg k)

/-! ## Rules of the whole machine -/

/-- Only CMP and IRET change FL in a step (`10_state.md`, the writers of FL): if a step changes FL, it ran one of them. -/
def Obligations.OnlyCmpAndIretChangeTheFlags : Prop :=
  ∀ s t : State, step s = .next t → t.fl ≠ s.fl →
    ∃ i, fetch s = .ok i ∧ (i.mnemonic = .cmp ∨ i.mnemonic = .iret)

/-- The output stream only grows, by at most one event a step, and only by PRN and PRA. -/
def Obligations.OutputGrowsOnlyByPrnAndPra : Prop :=
  ∀ s t : State, step s = .next t →
    t.out = s.out ∨ ∃ i e, fetch s = .ok i ∧ (i.mnemonic = .prn ∨ i.mnemonic = .pra) ∧ t.out = s.out ++ [e]

/-- A step changes a cell only by one of the writes listed in `20_memory.md` section 4: the nine pushes of an interrupt
entry, ST, PUSH or CALL. -/
def Obligations.OnlyTheListedWritesChangeMemory : Prop :=
  ∀ (s t : State) (x : Byte), step s = .next t → t.load x ≠ s.load x →
    (InterruptDue (boundary s) ∧ 1 ≤ (s.reg 7 - x).toNat ∧ (s.reg 7 - x).toNat ≤ 9) ∨
    (∃ a b, fetch s = .ok (.st a b) ∧ ∃ ha : a.toNat < 8, x = (boundary s).reg ⟨a.toNat, ha⟩) ∨
    (∃ a, (fetch s = .ok (.push a) ∨ fetch s = .ok (.call a)) ∧ x = s.reg 7 - 1)

/-- A running machine stops running only by executing HLT or by a fatal fault, and starts again by no step. -/
def Obligations.OnlyHltHalts : Prop :=
  ∀ s t : State, step s = .next t → t.run ≠ s.run →
    s.run = .running ∧ (t.run = .halted ∧ fetch s = .ok .hlt ∨ t.run = .faulted)

/-- The core never reads the output stream (`10_state.md`, OUT): with any events put before those a state holds, a step does
the same and keeps them there. -/
def Obligations.TheOutputStreamIsNeverRead : Prop :=
  ∀ (s t : State) (earlier : List OutEvent), step s = .next t →
    step { s with out := earlier ++ s.out } = .next { t with out := earlier ++ t.out }

/-- The opcode map is a parameter of the machine, fixed for good (`00_scope.md` section 3): no sequence of transactions, a RESET
included, and no step changes it. That State holds it is the model's choice (log 1). -/
def Obligations.NothingChangesTheOpcodeMap : Prop :=
  (∀ (ts : List Transaction) (s t : State), transactAll ts s = .next t → t.opc = s.opc) ∧
    ∀ s t : State, step s = .next t → t.opc = s.opc

/-! ## Instructions in sequence -/

/-- `LDI r v` and then `PRN r` emits v, for all registers and values, wherever both stand inside memory. -/
def Obligations.LdiThenPrnEmitsTheValue : Prop :=
  ∀ (s : State) (a v : Byte), s.jumped = false → s.pc.toNat ≤ 250 → a.toNat < 8 →
    ∃ t u, exec (.ldi a v) s = .next t ∧ exec (.prn a) t = .next u ∧ u.out = s.out ++ [.dec v]

/-- Pushing any register and at once popping into any register but R7 gives that one the value, and SP is as before, wherever
SP stands. -/
def Obligations.PushThenPopReturnsTheValue : Prop :=
  ∀ (s : State) (a b : Byte) (ha : a.toNat < 8), s.jumped = false → s.pc.toNat ≤ 251 → b.toNat < 7 →
    ∃ t u, exec (.push a) s = .next t ∧ exec (.pop b) t = .next u ∧
      u.reg 7 = s.reg 7 ∧ (∀ hb : b.toNat < 8, u.reg ⟨b.toNat, hb⟩ = s.reg ⟨a.toNat, ha⟩) ∧
      (∀ k : Fin 8, k.val ≠ b.toNat → u.reg k = s.reg k)

/-- A RET executed with R7 and the return byte as CALL left them resumes just after the CALL, with R7 as before it. -/
def Obligations.RetReturnsBehindTheCall : Prop :=
  ∀ (s : State) (a : Byte), s.jumped = false → s.pc.toNat ≤ 253 → a.toNat < 8 →
    ∃ t, exec (.call a) s = .next t ∧ ∀ u : State, u.reg 7 = t.reg 7 → u.load (u.reg 7) = t.load (t.reg 7) →
      ∃ r, exec .ret u = .next r ∧ r.pc = s.pc + 2 ∧ r.reg 7 = s.reg 7

/-! ## The loader and the host -/

/-- `LOAD` writes one byte before the first TICK; after it the model refuses, and above address 255 it faults. The table is
the spec's decision D18; the refusal and the fault are the model's (log 16). -/
def Obligations.LoadWritesOneByteBeforeLaunch : Prop :=
  ∀ (s : State) (addr : Nat) (v : Byte),
    (s.cycle = 0 → addr < 256 → transact (.load addr v) s = .next (s.store (BitVec.ofNat 8 addr) v)) ∧
    (s.cycle = 0 → 256 ≤ addr → transact (.load addr v) s = .fault .loadOutsideMemory) ∧
    (s.cycle ≠ 0 → transact (.load addr v) s = .refused .loadAfterLaunch)

/-- The reference loader puts a program's bytes at consecutive addresses from 0 and changes nothing else. -/
def Obligations.ALoadedProgramStandsFromAddressZero : Prop :=
  ∀ (s : State) (bytes : List Byte), s.cycle = 0 → bytes.length ≤ 256 →
    ∃ t, loadProgram bytes s = .next t ∧ t = { s with mem := t.mem } ∧
      (∀ (x : Byte) (h : x.toNat < bytes.length), t.load x = bytes[x.toNat]) ∧
      (∀ x : Byte, bytes.length ≤ x.toNat → t.load x = s.load x)

/-- `RESET` gives the reset state whatever the machine was doing, the interrupt source and the opcode map kept; after `STOP` neither a step nor a
TICK nor an IRQ changes anything. Which platform data a RESET touches is the model's choice (log 15). -/
def Obligations.ResetAndStopActAtAnyBoundary : Prop :=
  ∀ s : State,
    transact .reset s = .next { State.reset with irqSource := s.irqSource, opc := s.opc } ∧
    ∃ t, transact .stop s = .next t ∧ t = { s with stopped := true } ∧
      step t = .next t ∧ transact .tick t = .next t ∧ transact .irq t = .next t
end

