-- ==== Sys2Proof/Laws/Decode.lean ====
section
/-! SUPPORT. The small lemmas of the decoder: the opcode lookup, and what each part of decoding answers. -/

namespace Sys2Proof

theorem Mnemonic.mem_all (m : Mnemonic) : m ∈ Mnemonic.all := by cases m <;> decide

/-- OPC_DEFAULT meets the constraints of `30_encoding.md` R75. -/
theorem opcDefault_wf : opcDefault.wf := by decide

/-- What the lookup finds is a mnemonic with that opcode byte. -/
theorem opcode_of_mnemonicOf {opc : OpcodeMap} {b : Byte} {m : Mnemonic} (h : mnemonicOf opc b = some m) :
    opc.byte m = b := by
  simpa using List.find?_some h

/-- The lookup fails exactly on the bytes outside the image of the map (`30_encoding.md` R77). -/
theorem mnemonicOf_none {opc : OpcodeMap} {b : Byte} : mnemonicOf opc b = none ↔ ∀ m, opc.byte m ≠ b := by
  simp [mnemonicOf, List.find?_eq_none, Mnemonic.mem_all]

/-- An injective map is looked up right (`30_encoding.md` R75(c)). -/
theorem OpcodeMap.wf.injective {opc : OpcodeMap} (h : opc.wf) {m n : Mnemonic} (e : opc.byte m = opc.byte n) : m = n :=
  List.inj_on_of_nodup_map h.2 (Mnemonic.mem_all m) (Mnemonic.mem_all n) e

/-- The opcode byte of a mnemonic is looked up to that mnemonic. -/
theorem mnemonicOf_opcode {opc : OpcodeMap} (h : opc.wf) (m : Mnemonic) : mnemonicOf opc (opc.byte m) = some m := by
  cases e : mnemonicOf opc (opc.byte m) with
  | none => exact absurd rfl (mnemonicOf_none.mp e m)
  | some n => exact congrArg some (h.injective (opcode_of_mnemonicOf e))

/-- The operand bytes of an instruction, with anything after them, give the instruction back. -/
theorem decodeOperands_operandBytes (i : Instr) (rest : List Byte) :
    decodeOperands i.mnemonic (i.operandBytes ++ rest) = some (i, rest) := by
  cases i <;> rfl

/-- An instruction has as many operand bytes as its mnemonic's operand count. -/
theorem Instr.length_operandBytes (i : Instr) : i.operandBytes.length = i.mnemonic.nops := by
  cases i <;> rfl

theorem formatF1_some {mk : Byte → Instr} {bytes : List Byte} {r : Instr × List Byte}
    (h : formatF1 mk bytes = some r) : ∃ a rest, bytes = a :: rest ∧ r = (mk a, rest) := by
  match bytes with
  | [] => simp [formatF1] at h
  | a :: rest => exact ⟨a, rest, rfl, by simpa [formatF1] using h.symm⟩

theorem formatF2_some {mk : Byte → Byte → Instr} {bytes : List Byte} {r : Instr × List Byte}
    (h : formatF2 mk bytes = some r) : ∃ a b rest, bytes = a :: b :: rest ∧ r = (mk a b, rest) := by
  match bytes with
  | [] => simp [formatF2] at h
  | [_] => simp [formatF2] at h
  | a :: b :: rest => exact ⟨a, b, rest, rfl, by simpa [formatF2] using h.symm⟩

end Sys2Proof
end

