-- ==== Sys2Proof/Laws/State.lean ====
section
/-! SUPPORT. One lemma per field of State and primitive update, and the register and memory reads after each. -/

namespace Sys2Proof.Machine

variable (s : State)

/-! ### `setReg` -/

@[simp] theorem State.setReg_regs (i : Fin 8) (v : Byte) : (s.setReg i v).regs = s.regs.set i v := rfl
@[simp] theorem State.setReg_pc (i : Fin 8) (v : Byte) : (s.setReg i v).pc = s.pc := rfl
@[simp] theorem State.setReg_fl (i : Fin 8) (v : Byte) : (s.setReg i v).fl = s.fl := rfl
@[simp] theorem State.setReg_jumped (i : Fin 8) (v : Byte) : (s.setReg i v).jumped = s.jumped := rfl
@[simp] theorem State.setReg_run (i : Fin 8) (v : Byte) : (s.setReg i v).run = s.run := rfl
@[simp] theorem State.setReg_fcause (i : Fin 8) (v : Byte) : (s.setReg i v).fcause = s.fcause := rfl
@[simp] theorem State.setReg_finfo (i : Fin 8) (v : Byte) : (s.setReg i v).finfo = s.finfo := rfl
@[simp] theorem State.setReg_mem (i : Fin 8) (v : Byte) : (s.setReg i v).mem = s.mem := rfl
@[simp] theorem State.setReg_out (i : Fin 8) (v : Byte) : (s.setReg i v).out = s.out := rfl
@[simp] theorem State.setReg_cycle (i : Fin 8) (v : Byte) : (s.setReg i v).cycle = s.cycle := rfl
@[simp] theorem State.setReg_irqSource (i : Fin 8) (v : Byte) : (s.setReg i v).irqSource = s.irqSource := rfl
@[simp] theorem State.setReg_stopped (i : Fin 8) (v : Byte) : (s.setReg i v).stopped = s.stopped := rfl
@[simp] theorem State.setReg_opc (i : Fin 8) (v : Byte) : (s.setReg i v).opc = s.opc := rfl
@[simp] theorem State.setReg_load (i : Fin 8) (v : Byte) (k : Byte) : (s.setReg i v).load k = s.load k := rfl

/-! ### `setFl` -/

@[simp] theorem State.setFl_regs (v : Byte) : (s.setFl v).regs = s.regs := rfl
@[simp] theorem State.setFl_pc (v : Byte) : (s.setFl v).pc = s.pc := rfl
@[simp] theorem State.setFl_fl (v : Byte) : (s.setFl v).fl = v := rfl
@[simp] theorem State.setFl_jumped (v : Byte) : (s.setFl v).jumped = s.jumped := rfl
@[simp] theorem State.setFl_run (v : Byte) : (s.setFl v).run = s.run := rfl
@[simp] theorem State.setFl_fcause (v : Byte) : (s.setFl v).fcause = s.fcause := rfl
@[simp] theorem State.setFl_finfo (v : Byte) : (s.setFl v).finfo = s.finfo := rfl
@[simp] theorem State.setFl_mem (v : Byte) : (s.setFl v).mem = s.mem := rfl
@[simp] theorem State.setFl_out (v : Byte) : (s.setFl v).out = s.out := rfl
@[simp] theorem State.setFl_cycle (v : Byte) : (s.setFl v).cycle = s.cycle := rfl
@[simp] theorem State.setFl_irqSource (v : Byte) : (s.setFl v).irqSource = s.irqSource := rfl
@[simp] theorem State.setFl_stopped (v : Byte) : (s.setFl v).stopped = s.stopped := rfl
@[simp] theorem State.setFl_opc (v : Byte) : (s.setFl v).opc = s.opc := rfl
@[simp] theorem State.setFl_reg (v : Byte) (k : Fin 8) : (s.setFl v).reg k = s.reg k := rfl
@[simp] theorem State.setFl_load (v : Byte) (k : Byte) : (s.setFl v).load k = s.load k := rfl

/-! ### `store` -/

@[simp] theorem State.store_regs (a v : Byte) : (s.store a v).regs = s.regs := rfl
@[simp] theorem State.store_pc (a v : Byte) : (s.store a v).pc = s.pc := rfl
@[simp] theorem State.store_fl (a v : Byte) : (s.store a v).fl = s.fl := rfl
@[simp] theorem State.store_jumped (a v : Byte) : (s.store a v).jumped = s.jumped := rfl
@[simp] theorem State.store_run (a v : Byte) : (s.store a v).run = s.run := rfl
@[simp] theorem State.store_fcause (a v : Byte) : (s.store a v).fcause = s.fcause := rfl
@[simp] theorem State.store_finfo (a v : Byte) : (s.store a v).finfo = s.finfo := rfl
@[simp] theorem State.store_mem (a v : Byte) : (s.store a v).mem = s.mem.write a v := rfl
@[simp] theorem State.store_out (a v : Byte) : (s.store a v).out = s.out := rfl
@[simp] theorem State.store_cycle (a v : Byte) : (s.store a v).cycle = s.cycle := rfl
@[simp] theorem State.store_irqSource (a v : Byte) : (s.store a v).irqSource = s.irqSource := rfl
@[simp] theorem State.store_stopped (a v : Byte) : (s.store a v).stopped = s.stopped := rfl
@[simp] theorem State.store_opc (a v : Byte) : (s.store a v).opc = s.opc := rfl
@[simp] theorem State.store_reg (a v : Byte) (k : Fin 8) : (s.store a v).reg k = s.reg k := rfl

/-! ### `emit` -/

@[simp] theorem State.emit_regs (e : OutEvent) : (s.emit e).regs = s.regs := rfl
@[simp] theorem State.emit_pc (e : OutEvent) : (s.emit e).pc = s.pc := rfl
@[simp] theorem State.emit_fl (e : OutEvent) : (s.emit e).fl = s.fl := rfl
@[simp] theorem State.emit_jumped (e : OutEvent) : (s.emit e).jumped = s.jumped := rfl
@[simp] theorem State.emit_run (e : OutEvent) : (s.emit e).run = s.run := rfl
@[simp] theorem State.emit_fcause (e : OutEvent) : (s.emit e).fcause = s.fcause := rfl
@[simp] theorem State.emit_finfo (e : OutEvent) : (s.emit e).finfo = s.finfo := rfl
@[simp] theorem State.emit_mem (e : OutEvent) : (s.emit e).mem = s.mem := rfl
@[simp] theorem State.emit_out (e : OutEvent) : (s.emit e).out = s.out ++ [e] := rfl
@[simp] theorem State.emit_cycle (e : OutEvent) : (s.emit e).cycle = s.cycle := rfl
@[simp] theorem State.emit_irqSource (e : OutEvent) : (s.emit e).irqSource = s.irqSource := rfl
@[simp] theorem State.emit_stopped (e : OutEvent) : (s.emit e).stopped = s.stopped := rfl
@[simp] theorem State.emit_opc (e : OutEvent) : (s.emit e).opc = s.opc := rfl
@[simp] theorem State.emit_reg (e : OutEvent) (k : Fin 8) : (s.emit e).reg k = s.reg k := rfl
@[simp] theorem State.emit_load (e : OutEvent) (k : Byte) : (s.emit e).load k = s.load k := rfl

/-! ### `jumpTo` -/

@[simp] theorem State.jumpTo_regs (a : Byte) : (s.jumpTo a).regs = s.regs := rfl
@[simp] theorem State.jumpTo_pc (a : Byte) : (s.jumpTo a).pc = a := rfl
@[simp] theorem State.jumpTo_fl (a : Byte) : (s.jumpTo a).fl = s.fl := rfl
@[simp] theorem State.jumpTo_jumped (a : Byte) : (s.jumpTo a).jumped = true := rfl
@[simp] theorem State.jumpTo_run (a : Byte) : (s.jumpTo a).run = s.run := rfl
@[simp] theorem State.jumpTo_fcause (a : Byte) : (s.jumpTo a).fcause = s.fcause := rfl
@[simp] theorem State.jumpTo_finfo (a : Byte) : (s.jumpTo a).finfo = s.finfo := rfl
@[simp] theorem State.jumpTo_mem (a : Byte) : (s.jumpTo a).mem = s.mem := rfl
@[simp] theorem State.jumpTo_out (a : Byte) : (s.jumpTo a).out = s.out := rfl
@[simp] theorem State.jumpTo_cycle (a : Byte) : (s.jumpTo a).cycle = s.cycle := rfl
@[simp] theorem State.jumpTo_irqSource (a : Byte) : (s.jumpTo a).irqSource = s.irqSource := rfl
@[simp] theorem State.jumpTo_stopped (a : Byte) : (s.jumpTo a).stopped = s.stopped := rfl
@[simp] theorem State.jumpTo_opc (a : Byte) : (s.jumpTo a).opc = s.opc := rfl
@[simp] theorem State.jumpTo_reg (a : Byte) (k : Fin 8) : (s.jumpTo a).reg k = s.reg k := rfl
@[simp] theorem State.jumpTo_load (a : Byte) (k : Byte) : (s.jumpTo a).load k = s.load k := rfl

/-! ### `halt` -/

@[simp] theorem State.halt_regs : (s.halt).regs = s.regs := rfl
@[simp] theorem State.halt_pc : (s.halt).pc = s.pc := rfl
@[simp] theorem State.halt_fl : (s.halt).fl = s.fl := rfl
@[simp] theorem State.halt_jumped : (s.halt).jumped = s.jumped := rfl
@[simp] theorem State.halt_run : (s.halt).run = .halted := rfl
@[simp] theorem State.halt_fcause : (s.halt).fcause = s.fcause := rfl
@[simp] theorem State.halt_finfo : (s.halt).finfo = s.finfo := rfl
@[simp] theorem State.halt_mem : (s.halt).mem = s.mem := rfl
@[simp] theorem State.halt_out : (s.halt).out = s.out := rfl
@[simp] theorem State.halt_cycle : (s.halt).cycle = s.cycle := rfl
@[simp] theorem State.halt_irqSource : (s.halt).irqSource = s.irqSource := rfl
@[simp] theorem State.halt_stopped : (s.halt).stopped = s.stopped := rfl
@[simp] theorem State.halt_opc : (s.halt).opc = s.opc := rfl
@[simp] theorem State.halt_reg (k : Fin 8) : (s.halt).reg k = s.reg k := rfl
@[simp] theorem State.halt_load (k : Byte) : (s.halt).load k = s.load k := rfl

/-! ### `raiseFault` -/

@[simp] theorem State.raiseFault_regs (c : FaultCause) (b : Byte) : (s.raiseFault c b).regs = s.regs := rfl
@[simp] theorem State.raiseFault_pc (c : FaultCause) (b : Byte) : (s.raiseFault c b).pc = s.pc := rfl
@[simp] theorem State.raiseFault_fl (c : FaultCause) (b : Byte) : (s.raiseFault c b).fl = s.fl := rfl
@[simp] theorem State.raiseFault_jumped (c : FaultCause) (b : Byte) : (s.raiseFault c b).jumped = s.jumped := rfl
@[simp] theorem State.raiseFault_run (c : FaultCause) (b : Byte) : (s.raiseFault c b).run = .faulted := rfl
@[simp] theorem State.raiseFault_fcause (c : FaultCause) (b : Byte) : (s.raiseFault c b).fcause = c := rfl
@[simp] theorem State.raiseFault_finfo (c : FaultCause) (b : Byte) : (s.raiseFault c b).finfo = b := rfl
@[simp] theorem State.raiseFault_mem (c : FaultCause) (b : Byte) : (s.raiseFault c b).mem = s.mem := rfl
@[simp] theorem State.raiseFault_out (c : FaultCause) (b : Byte) : (s.raiseFault c b).out = s.out := rfl
@[simp] theorem State.raiseFault_cycle (c : FaultCause) (b : Byte) : (s.raiseFault c b).cycle = s.cycle := rfl
@[simp] theorem State.raiseFault_irqSource (c : FaultCause) (b : Byte) : (s.raiseFault c b).irqSource = s.irqSource := rfl
@[simp] theorem State.raiseFault_stopped (c : FaultCause) (b : Byte) : (s.raiseFault c b).stopped = s.stopped := rfl
@[simp] theorem State.raiseFault_opc (c : FaultCause) (b : Byte) : (s.raiseFault c b).opc = s.opc := rfl
@[simp] theorem State.raiseFault_reg (c : FaultCause) (b : Byte) (k : Fin 8) : (s.raiseFault c b).reg k = s.reg k := rfl
@[simp] theorem State.raiseFault_load (c : FaultCause) (b : Byte) (k : Byte) : (s.raiseFault c b).load k = s.load k := rfl

/-! ### The register file -/

/-- A register holds what was last written to it, and a write changes no other register (`10_state.md` R20). -/
theorem State.reg_setReg (i k : Fin 8) (v : Byte) :
    (s.setReg i v).reg k = if i = k then v else s.reg k := by
  simp [State.reg, State.setReg, Vector.getElem_set, Fin.ext_iff]

@[simp] theorem State.reg_setReg_same (i : Fin 8) (v : Byte) : (s.setReg i v).reg i = v := by
  simp [State.reg_setReg]

theorem State.reg_setReg_ne (i k : Fin 8) (v : Byte) (h : i ≠ k) : (s.setReg i v).reg k = s.reg k := by
  simp [State.reg_setReg, h]

/-- Two register files that read the same are the same. -/
theorem State.regs_ext {s t : State} (h : ∀ k, s.reg k = t.reg k) : s.regs = t.regs := by
  apply Vector.ext
  intro k hk
  exact h ⟨k, hk⟩

/-! ### The advance -/

theorem State.advance_of_jumped (m : Mnemonic) (h : s.jumped = true) :
    s.advance m = { s with jumped := false } := by
  simp [State.advance, h]

theorem State.advance_of_not_jumped (m : Mnemonic) (h : s.jumped = false) :
    s.advance m = { s with pc := s.pc + BitVec.ofNat 8 (m.nops + 1) } := by
  simp [State.advance, h]

@[simp] theorem State.advance_regs (m : Mnemonic) : (s.advance m).regs = s.regs := by
  unfold State.advance; split <;> rfl
@[simp] theorem State.advance_fl (m : Mnemonic) : (s.advance m).fl = s.fl := by
  unfold State.advance; split <;> rfl
@[simp] theorem State.advance_run (m : Mnemonic) : (s.advance m).run = s.run := by
  unfold State.advance; split <;> rfl
@[simp] theorem State.advance_fcause (m : Mnemonic) : (s.advance m).fcause = s.fcause := by
  unfold State.advance; split <;> rfl
@[simp] theorem State.advance_finfo (m : Mnemonic) : (s.advance m).finfo = s.finfo := by
  unfold State.advance; split <;> rfl
@[simp] theorem State.advance_mem (m : Mnemonic) : (s.advance m).mem = s.mem := by
  unfold State.advance; split <;> rfl
@[simp] theorem State.advance_out (m : Mnemonic) : (s.advance m).out = s.out := by
  unfold State.advance; split <;> rfl
@[simp] theorem State.advance_cycle (m : Mnemonic) : (s.advance m).cycle = s.cycle := by
  unfold State.advance; split <;> rfl
@[simp] theorem State.advance_irqSource (m : Mnemonic) : (s.advance m).irqSource = s.irqSource := by
  unfold State.advance; split <;> rfl
@[simp] theorem State.advance_stopped (m : Mnemonic) : (s.advance m).stopped = s.stopped := by
  unfold State.advance; split <;> rfl
@[simp] theorem State.advance_opc (m : Mnemonic) : (s.advance m).opc = s.opc := by
  unfold State.advance; split <;> rfl
@[simp] theorem State.advance_jumped (m : Mnemonic) : (s.advance m).jumped = false := by
  unfold State.advance
  split
  · rfl
  · simp_all
@[simp] theorem State.advance_reg (m : Mnemonic) (k : Fin 8) : (s.advance m).reg k = s.reg k := by
  unfold State.advance; split <;> rfl
@[simp] theorem State.advance_load (m : Mnemonic) (k : Byte) : (s.advance m).load k = s.load k := by
  unfold State.advance; split <;> rfl

end Sys2Proof.Machine
end

