-- ==== Sys2Proof/Laws/Memory.lean ====
section
/-! SUPPORT. The laws of memory: a read after a write, the canonical form kept, and canonical memories that read the same
are the same list (`20_memory.md` R51). -/

namespace Sys2Proof.Machine

/-! ### Lookup after each part of a write -/

theorem Memory.lookup_filter_same (m : Memory) (k : Nat) :
    Memory.lookup (m.filter fun c => c.1 ≠ k) k = Config.unlistedByte := by
  induction m with
  | nil => rfl
  | cons c m ih =>
    by_cases h : c.1 = k
    · simpa [h] using ih
    · simpa [h, Memory.lookup] using ih

theorem Memory.lookup_filter_ne (m : Memory) {k j : Nat} (hjk : j ≠ k) :
    Memory.lookup (m.filter fun c => c.1 ≠ k) j = Memory.lookup m j := by
  induction m with
  | nil => rfl
  | cons c m ih =>
    by_cases h : c.1 = k
    · have hj : ¬ k = j := fun e => hjk e.symm
      simpa [h, Memory.lookup, hj] using ih
    · simp only [ne_eq, decide_not] at ih
      simp [h, Memory.lookup, ih]

theorem Memory.lookup_place_ne (m : Memory) {k j : Nat} (v : Byte) (hjk : j ≠ k) :
    Memory.lookup (Memory.place k v m) j = Memory.lookup m j := by
  have hkj : ¬ k = j := fun e => hjk e.symm
  induction m with
  | nil => simp [Memory.place, Memory.lookup, hkj]
  | cons c m ih =>
    unfold Memory.place
    split
    · simp [Memory.lookup, hkj]
    · simp [Memory.lookup, ih]

theorem Memory.lookup_place_same (m : Memory) (k : Nat) (v : Byte) (h : ∀ c ∈ m, c.1 ≠ k) :
    Memory.lookup (Memory.place k v m) k = v := by
  induction m with
  | nil => simp [Memory.place, Memory.lookup]
  | cons c m ih =>
    unfold Memory.place
    split
    · simp [Memory.lookup]
    · have hc : c.1 ≠ k := h c (by simp)
      simp only [Memory.lookup, hc, if_false]
      exact ih fun d hd => h d (by simp [hd])

/-! ### Read after write -/

@[simp] theorem Memory.read_write_same (m : Memory) (a v : Byte) : (Memory.write m a v).read a = v := by
  unfold Memory.write Memory.read
  dsimp only
  split
  · rename_i hv
    rw [Memory.lookup_filter_same, hv]
  · exact Memory.lookup_place_same _ _ _ fun c hc => by simpa using (List.mem_filter.mp hc).2

theorem Memory.read_write_ne (m : Memory) {a b : Byte} (v : Byte) (h : b ≠ a) :
    (Memory.write m a v).read b = Memory.read m b := by
  have hn : b.toNat ≠ a.toNat := fun e => h (BitVec.eq_of_toNat_eq e)
  unfold Memory.write Memory.read
  dsimp only
  split
  · exact Memory.lookup_filter_ne m hn
  · rw [Memory.lookup_place_ne _ _ hn, Memory.lookup_filter_ne m hn]

/-- What a write does to every read. -/
theorem Memory.read_write (m : Memory) (a b v : Byte) :
    (Memory.write m a v).read b = if b = a then v else Memory.read m b := by
  split
  · rename_i h; subst h; simp
  · rename_i h; exact Memory.read_write_ne m v h

@[simp] theorem State.load_store_same (s : State) (a v : Byte) : (s.store a v).load a = v :=
  Memory.read_write_same s.mem a v

theorem State.load_store_ne (s : State) {a b : Byte} (v : Byte) (h : b ≠ a) : (s.store a v).load b = s.load b :=
  Memory.read_write_ne s.mem v h

theorem State.load_store (s : State) (a b v : Byte) : (s.store a v).load b = if b = a then v else s.load b :=
  Memory.read_write s.mem a b v

/-! ### The canonical form -/

theorem Memory.mem_place {k : Nat} {v : Byte} {m : Memory} {c : Host.Cell} :
    c ∈ Memory.place k v m ↔ c = (k, v) ∨ c ∈ m := by
  induction m with
  | nil => simp [Memory.place]
  | cons d m ih =>
    unfold Memory.place
    split
    · simp
    · simp [ih, or_left_comm]

theorem Memory.place_sorted {k : Nat} {v : Byte} {m : Memory}
    (hs : m.Pairwise fun c d => c.1 < d.1) (hk : ∀ c ∈ m, c.1 ≠ k) :
    (Memory.place k v m).Pairwise fun c d => c.1 < d.1 := by
  induction m with
  | nil => simp [Memory.place]
  | cons d m ih =>
    rw [List.pairwise_cons] at hs
    unfold Memory.place
    split
    · rename_i hlt
      refine List.pairwise_cons.mpr ⟨fun c hc => ?_, List.pairwise_cons.mpr hs⟩
      rcases List.mem_cons.mp hc with rfl | hm
      · exact hlt
      · exact Nat.lt_trans hlt (hs.1 c hm)
    · rename_i hge
      have hd : d.1 ≠ k := hk d (by simp)
      refine List.pairwise_cons.mpr ⟨fun c hc => ?_, ih hs.2 fun c hc => hk c (by simp [hc])⟩
      rcases Memory.mem_place.mp hc with rfl | hm
      · change d.1 < k
        omega
      · exact hs.1 c hm

/-- A write keeps the canonical form. -/
theorem Memory.write_wf {m : Memory} (a v : Byte) (h : m.wf) : (Memory.write m a v).wf := by
  have hf : Memory.wf (m.filter fun c => c.1 ≠ a.toNat) :=
    ⟨h.1.filter _, fun c hc => h.2 c (List.mem_filter.mp hc).1⟩
  unfold Memory.write
  dsimp only
  split
  · exact hf
  · rename_i hv
    refine ⟨Memory.place_sorted hf.1 fun c hc => by simpa using (List.mem_filter.mp hc).2, fun c hc => ?_⟩
    rcases Memory.mem_place.mp hc with rfl | hm
    · exact ⟨a.isLt, hv⟩
    · exact hf.2 c hm

/-- The empty memory is canonical. -/
theorem Memory.nil_wf : Memory.wf [] := ⟨List.Pairwise.nil, nofun⟩

end Sys2Proof.Machine
end

