-- ==== Sys2Proof/Laws/Ops.lean ====
section
/-! SUPPORT. One lemma per shared operation that says everything it can do. -/

namespace Sys2Proof.Machine

/-! ### The checks of step 4a -/

/-- The range check either raises AddressRange or lets the instruction go on. -/
theorem inRange_next {m : Mnemonic} {s t : State} {k : Result} (h : inRange m s k = .next t) :
    (255 < neededAddress m s ∧ t = s.raiseFault .addressRange (s.opc.byte m)) ∨
      (neededAddress m s ≤ 255 ∧ k = .next t) := by
  unfold inRange at h
  split at h
  · rename_i hn
    exact .inl ⟨hn, by simpa using h.symm⟩
  · rename_i hn
    exact .inr ⟨by omega, h⟩

theorem inRange_ok {m : Mnemonic} {s : State} {k : Result} (h : neededAddress m s ≤ 255) : inRange m s k = k := by
  simp [inRange, Nat.not_lt.mpr h]

theorem inRange_fault {m : Mnemonic} {s : State} {k : Result} (h : 255 < neededAddress m s) :
    inRange m s k = .next (s.raiseFault .addressRange (s.opc.byte m)) := by
  simp [inRange, h]

/-- A register operand is read as its whole byte, or RegisterIndex is raised. -/
theorem withReg_next {b : Byte} {s t : State} {k : Fin 8 → Result} (h : withReg b s k = .next t) :
    (8 ≤ b.toNat ∧ t = s.raiseFault .registerIndex b) ∨ ∃ hb : b.toNat < 8, k ⟨b.toNat, hb⟩ = .next t := by
  unfold withReg regIndex? at h
  by_cases hb : b.toNat < 8
  · exact .inr ⟨hb, by simpa [hb] using h⟩
  · exact .inl ⟨by omega, by simpa [hb] using h.symm⟩

theorem withReg_ok {b : Byte} {s : State} {k : Fin 8 → Result} (h : b.toNat < 8) :
    withReg b s k = k ⟨b.toNat, h⟩ := by
  simp [withReg, regIndex?, h]

theorem withReg_fault {b : Byte} {s : State} {k : Fin 8 → Result} (h : ¬ b.toNat < 8) :
    withReg b s k = .next (s.raiseFault .registerIndex b) := by
  simp [withReg, regIndex?, h]

/-! ### The stack engine -/

/-- `Push(v)` as its two writes. -/
theorem push_eq (v : Byte) (s : State) :
    push v s = (s.setReg spReg (s.reg spReg - 1)).store (s.reg spReg - 1) v := by
  simp [push]

@[simp] theorem push_pc (v : Byte) (s : State) : (push v s).pc = s.pc := rfl
@[simp] theorem push_fl (v : Byte) (s : State) : (push v s).fl = s.fl := rfl
@[simp] theorem push_jumped (v : Byte) (s : State) : (push v s).jumped = s.jumped := rfl
@[simp] theorem push_run (v : Byte) (s : State) : (push v s).run = s.run := rfl
@[simp] theorem push_fcause (v : Byte) (s : State) : (push v s).fcause = s.fcause := rfl
@[simp] theorem push_finfo (v : Byte) (s : State) : (push v s).finfo = s.finfo := rfl
@[simp] theorem push_out (v : Byte) (s : State) : (push v s).out = s.out := rfl
@[simp] theorem push_cycle (v : Byte) (s : State) : (push v s).cycle = s.cycle := rfl
@[simp] theorem push_irqSource (v : Byte) (s : State) : (push v s).irqSource = s.irqSource := rfl
@[simp] theorem push_stopped (v : Byte) (s : State) : (push v s).stopped = s.stopped := rfl
@[simp] theorem push_opc (v : Byte) (s : State) : (push v s).opc = s.opc := rfl

/-- The registers after a push: only SP moves, down by one modulo 256. -/
theorem push_reg (v : Byte) (s : State) (k : Fin 8) :
    (push v s).reg k = if spReg = k then s.reg spReg - 1 else s.reg k := by
  simp [push_eq, State.reg_setReg]

/-- Memory after a push: only the cell below the old SP changes. -/
theorem push_load (v : Byte) (s : State) (a : Byte) :
    (push v s).load a = if a = s.reg spReg - 1 then v else s.load a := by
  simp [push_eq, State.load_store]

theorem push_wf (v : Byte) {s : State} (h : s.mem.wf) : (push v s).mem.wf := by
  rw [push_eq]
  exact Memory.write_wf _ _ h

@[simp] theorem pop_fst (s : State) : (pop s).1 = s.load (s.reg spReg) := rfl
@[simp] theorem pop_snd (s : State) : (pop s).2 = s.setReg spReg (s.reg spReg + 1) := rfl

/-- Popping into a register, as its two register writes. -/
theorem popReg_eq (i : Fin 8) (s : State) :
    popReg i s = (s.setReg spReg (s.reg spReg + 1)).setReg i (s.load (s.reg spReg)) := rfl

@[simp] theorem popReg_pc (i : Fin 8) (s : State) : (popReg i s).pc = s.pc := rfl
@[simp] theorem popReg_fl (i : Fin 8) (s : State) : (popReg i s).fl = s.fl := rfl
@[simp] theorem popReg_jumped (i : Fin 8) (s : State) : (popReg i s).jumped = s.jumped := rfl
@[simp] theorem popReg_run (i : Fin 8) (s : State) : (popReg i s).run = s.run := rfl
@[simp] theorem popReg_fcause (i : Fin 8) (s : State) : (popReg i s).fcause = s.fcause := rfl
@[simp] theorem popReg_finfo (i : Fin 8) (s : State) : (popReg i s).finfo = s.finfo := rfl
@[simp] theorem popReg_mem (i : Fin 8) (s : State) : (popReg i s).mem = s.mem := rfl
@[simp] theorem popReg_load (i : Fin 8) (s : State) (a : Byte) : (popReg i s).load a = s.load a := rfl
@[simp] theorem popReg_out (i : Fin 8) (s : State) : (popReg i s).out = s.out := rfl
@[simp] theorem popReg_cycle (i : Fin 8) (s : State) : (popReg i s).cycle = s.cycle := rfl
@[simp] theorem popReg_irqSource (i : Fin 8) (s : State) : (popReg i s).irqSource = s.irqSource := rfl
@[simp] theorem popReg_stopped (i : Fin 8) (s : State) : (popReg i s).stopped = s.stopped := rfl
@[simp] theorem popReg_opc (i : Fin 8) (s : State) : (popReg i s).opc = s.opc := rfl

/-- The registers after popping into a register: the popped byte, else SP up by one, else unchanged. -/
theorem popReg_reg (i : Fin 8) (s : State) (k : Fin 8) :
    (popReg i s).reg k =
      if i = k then s.load (s.reg spReg) else if spReg = k then s.reg spReg + 1 else s.reg k := by
  simp [popReg_eq, State.reg_setReg]

/-! ### Interrupt entry and return -/

/-- `StateSave()` as nine pushes. -/
theorem stateSave_eq (s : State) :
    stateSave s =
      push (s.reg 6) (push (s.reg 5) (push (s.reg 4) (push (s.reg 3) (push (s.reg 2) (push (s.reg 1)
        (push (s.reg 0) (push s.fl (push s.pc s)))))))) := by
  simp [stateSave, push_reg, spReg]

/-- `StateSave()` pushes nine bytes: it changes SP and memory and nothing else. -/
theorem stateSave_frame (s : State) :
    (stateSave s).pc = s.pc ∧ (stateSave s).fl = s.fl ∧ (stateSave s).jumped = s.jumped ∧
      (stateSave s).run = s.run ∧ (stateSave s).fcause = s.fcause ∧ (stateSave s).finfo = s.finfo ∧
      (stateSave s).out = s.out ∧ (stateSave s).cycle = s.cycle ∧ (stateSave s).irqSource = s.irqSource ∧
      (stateSave s).stopped = s.stopped ∧ (stateSave s).opc = s.opc :=
  ⟨rfl, rfl, rfl, rfl, rfl, rfl, rfl, rfl, rfl, rfl, rfl⟩

theorem stateSave_wf {s : State} (h : s.mem.wf) : (stateSave s).mem.wf := by
  rw [stateSave_eq]
  exact push_wf _ <| push_wf _ <| push_wf _ <| push_wf _ <| push_wf _ <| push_wf _ <| push_wf _ <| push_wf _ <|
    push_wf _ h

theorem enterInterrupt_wf {s : State} (h : s.mem.wf) : (enterInterrupt s).mem.wf :=
  stateSave_wf (s := s.setReg isReg 0) h

/-- The seven register pops of `StateRestore()`. -/
theorem stateRestore_eq (s : State) :
    ∃ r, r = popReg 0 (popReg 1 (popReg 2 (popReg 3 (popReg 4 (popReg 5 (popReg 6 s)))))) ∧
      stateRestore s =
        (((r.setReg spReg (r.reg spReg + 1)).setFl (r.load (r.reg spReg))).setReg spReg (r.reg spReg + 2)).jumpTo
          (r.load (r.reg spReg + 1)) := by
  refine ⟨_, rfl, ?_⟩
  simp [stateRestore, BitVec.add_assoc]

/-- The return changes registers, FL, PC and the jump indicator, and nothing else. -/
theorem stateRestore_frame (s : State) :
    (stateRestore s).jumped = true ∧ (stateRestore s).run = s.run ∧ (stateRestore s).fcause = s.fcause ∧
      (stateRestore s).finfo = s.finfo ∧ (stateRestore s).mem = s.mem ∧ (stateRestore s).out = s.out ∧
      (stateRestore s).cycle = s.cycle ∧ (stateRestore s).irqSource = s.irqSource ∧
      (stateRestore s).stopped = s.stopped ∧ (stateRestore s).opc = s.opc := by
  obtain ⟨r, rfl, h⟩ := stateRestore_eq s
  simp [h]

/-! ### The interrupt source and the boundary -/

/-- The boundary either asserts the interrupt line or leaves the registers alone. -/
theorem boundary_cases (s : State) :
    boundary s = { s with cycle := s.cycle + 1, irqSource := s.irqSource.past } ∨
      boundary s = irq { s with cycle := s.cycle + 1, irqSource := s.irqSource.past } := by
  unfold boundary sourceActs
  dsimp only
  split
  · exact .inr rfl
  · exact .inl rfl

end Sys2Proof.Machine
end

