-- ==== Sys2Proof/Laws/Interrupt.lean ====
section
/-! SUPPORT. The nine-byte frame in closed form: every register and every cell after `StateSave()`, after an interrupt entry,
and after `StateRestore()` (`42_stack.md` R124, R125). -/

namespace Sys2Proof.Machine

/-- The byte that `StateSave()` puts `d` cells below the old SP, or `old` where it writes none. -/
def frameByte (s : State) (d old : Byte) : Byte :=
  if d = 1 then s.pc else if d = 2 then s.fl else if d = 3 then s.reg 0 else if d = 4 then s.reg 1
  else if d = 5 then s.reg 2 else if d = 6 then s.reg 3 else if d = 7 then s.reg 4 else if d = 8 then s.reg 5
  else if d = 9 then s.reg 6 else old

theorem eq_sub_iff (x sp n : Byte) : x = sp - n ↔ sp - x = n := by
  constructor <;> intro h <;> bv_omega

/-- Every cell after `StateSave()`. -/
theorem stateSave_load (s : State) (x : Byte) :
    (stateSave s).load x = frameByte s (s.reg 7 - x) (s.load x) := by
  rw [stateSave_eq, frameByte]
  simp only [push_load, push_reg, spReg, if_true, BitVec.sub_sub, eq_sub_iff]
  generalize s.reg 7 - x = d
  by_cases h1 : d = 1
  · subst h1; rfl
  by_cases h2 : d = 2
  · subst h2; rfl
  by_cases h3 : d = 3
  · subst h3; rfl
  by_cases h4 : d = 4
  · subst h4; rfl
  by_cases h5 : d = 5
  · subst h5; rfl
  by_cases h6 : d = 6
  · subst h6; rfl
  by_cases h7 : d = 7
  · subst h7; rfl
  by_cases h8 : d = 8
  · subst h8; rfl
  by_cases h9 : d = 9
  · subst h9; rfl
  simp_all

/-- Every register after `StateSave()`. -/
theorem stateSave_reg (s : State) (k : Fin 8) :
    (stateSave s).reg k = if k = 7 then s.reg 7 - 9 else s.reg k := by
  rw [stateSave_eq]
  simp only [push_reg, spReg, if_true]
  by_cases h : k = 7
  · subst h; simp [BitVec.sub_sub]
  · simp [h, Ne.symm h]

/-- An interrupt entry as a save and a load of PC. -/
theorem enterInterrupt_eq (s : State) :
    ∃ r, r = stateSave (s.setReg isReg 0) ∧ enterInterrupt s = { r with pc := r.load intVector } :=
  ⟨_, rfl, rfl⟩

/-- Every register after an interrupt entry. -/
theorem enterInterrupt_reg (s : State) (k : Fin 8) :
    (enterInterrupt s).reg k = if k = 7 then s.reg 7 - 9 else if k = 6 then 0 else s.reg k := by
  obtain ⟨r, hr, h⟩ := enterInterrupt_eq s
  rw [h]
  change r.reg k = _
  rw [hr, stateSave_reg]
  by_cases h6 : k = 6
  · subst h6; simp [isReg]
  · simp [State.reg_setReg, isReg, h6, Ne.symm h6]

/-- Every cell after an interrupt entry. -/
theorem enterInterrupt_load (s : State) (x : Byte) :
    (enterInterrupt s).load x = frameByte (s.setReg isReg 0) (s.reg 7 - x) (s.load x) := by
  obtain ⟨r, hr, h⟩ := enterInterrupt_eq s
  rw [h]
  change r.load x = _
  rw [hr, stateSave_load]
  simp [State.reg_setReg, isReg]

/-- PC after an interrupt entry is the vector byte, read after the pushes. -/
theorem enterInterrupt_pc (s : State) : (enterInterrupt s).pc = (enterInterrupt s).load intVector := by
  obtain ⟨r, _, h⟩ := enterInterrupt_eq s
  rw [h]
  rfl

/-- What an interrupt entry does not touch. -/
theorem enterInterrupt_frame (s : State) :
    (enterInterrupt s).fl = s.fl ∧ (enterInterrupt s).jumped = s.jumped ∧ (enterInterrupt s).run = s.run ∧
      (enterInterrupt s).fcause = s.fcause ∧ (enterInterrupt s).finfo = s.finfo ∧ (enterInterrupt s).out = s.out ∧
      (enterInterrupt s).cycle = s.cycle ∧ (enterInterrupt s).irqSource = s.irqSource ∧
      (enterInterrupt s).stopped = s.stopped ∧ (enterInterrupt s).opc = s.opc := by
  obtain ⟨r, hr, h⟩ := enterInterrupt_eq s
  obtain ⟨_, h⟩ : _ ∧ _ := stateSave_frame (s.setReg isReg 0)
  rw [‹enterInterrupt s = _›, hr]
  exact h

/-- Every register after `StateRestore()`. -/
theorem stateRestore_reg (s : State) (k : Fin 8) :
    (stateRestore s).reg k =
      if k = 7 then s.reg 7 + 9 else s.load (s.reg 7 + BitVec.ofNat 8 (6 - k.val)) := by
  obtain ⟨r, rfl, h⟩ := stateRestore_eq s
  rw [h]
  simp only [State.jumpTo_reg, State.reg_setReg, State.setFl_reg, popReg_reg, popReg_load, spReg]
  match k with
  | 0 => simp [BitVec.add_assoc]
  | 1 => simp [BitVec.add_assoc]
  | 2 => simp [BitVec.add_assoc]
  | 3 => simp [BitVec.add_assoc]
  | 4 => simp [BitVec.add_assoc]
  | 5 => simp
  | 6 => simp
  | 7 => simp [BitVec.add_assoc]

/-- FL and PC after `StateRestore()`. -/
theorem stateRestore_fl_pc (s : State) :
    (stateRestore s).fl = s.load (s.reg 7 + 7) ∧ (stateRestore s).pc = s.load (s.reg 7 + 8) := by
  obtain ⟨r, rfl, h⟩ := stateRestore_eq s
  rw [h]
  simp [popReg_reg, popReg_load, spReg, BitVec.add_assoc]

end Sys2Proof.Machine
end

