-- ==== Sys2Proof/Laws/Exec.lean ====
section
/-! SUPPORT. Everything an instruction can do, said once: it raises one of its faults, or it has its effect and PC is advanced.
Claims about all instructions follow from `exec_next` by cases. -/

namespace Sys2Proof.Machine

/-- The effect of an instruction before step 5, as a relation. -/
def ExecEffect (i : Instr) (s u : State) : Prop :=
  match i with
  | .ldi a v => ∃ ra : Fin 8, ra.val = a.toNat ∧ u = s.setReg ra v
  | .prn a => ∃ ra : Fin 8, ra.val = a.toNat ∧ u = s.emit (.dec (s.reg ra))
  | .pra a => ∃ ra : Fin 8, ra.val = a.toNat ∧ u = s.emit (.chr (s.reg ra))
  | .hlt => u = s.halt
  | .push a => ∃ ra : Fin 8, ra.val = a.toNat ∧ u = push (s.reg ra) s
  | .pop a => ∃ ra : Fin 8, ra.val = a.toNat ∧ u = popReg ra s
  | .call a => ∃ ra : Fin 8, ra.val = a.toNat ∧ u = (push (s.pc + 2) s).jumpTo ((push (s.pc + 2) s).reg ra)
  | .ret => u = (pop s).2.jumpTo (pop s).1
  | .add a b => ∃ ra rb : Fin 8, ra.val = a.toNat ∧ rb.val = b.toNat ∧
      u = s.setReg ra (addByte (s.reg ra) (s.reg rb))
  | .st a b => ∃ ra rb : Fin 8, ra.val = a.toNat ∧ rb.val = b.toNat ∧ u = s.store (s.reg ra) (s.reg rb)
  | .iret => u = stateRestore s
  | .jmp a => ∃ ra : Fin 8, ra.val = a.toNat ∧ u = s.jumpTo (s.reg ra)
  | .cmp a b => ∃ ra rb : Fin 8, ra.val = a.toNat ∧ rb.val = b.toNat ∧
      u = s.setFl (compareFlags (s.reg ra) (s.reg rb))
  | .jeq a => ∃ ra : Fin 8, ra.val = a.toNat ∧ u = if s.equalFlag then s.jumpTo (s.reg ra) else s
  | .jne a => ∃ ra : Fin 8, ra.val = a.toNat ∧ u = if s.equalFlag then s else s.jumpTo (s.reg ra)
  | .mul a b => ∃ ra rb : Fin 8, ra.val = a.toNat ∧ rb.val = b.toNat ∧
      u = s.setReg ra (mulByte (s.reg ra) (s.reg rb))

/-- The faults an instruction can raise, in their order (`60_exceptions.md` R165). -/
def ExecFault (m : Mnemonic) (registers : List Byte) (s t : State) : Prop :=
  (255 < neededAddress m s ∧ t = s.raiseFault .addressRange (s.opc.byte m)) ∨
    (neededAddress m s ≤ 255 ∧ ∃ bad, registers.find? (fun b => 8 ≤ b.toNat) = some bad ∧
      t = s.raiseFault .registerIndex bad)

/-- An instruction without register operand. -/
theorem exec0_next {m : Mnemonic} {s t u : State} (h : inRange m s (finish m u) = .next t) :
    ExecFault m [] s t ∨ (neededAddress m s ≤ 255 ∧ t = u.advance m) := by
  rcases inRange_next h with ⟨hn, ht⟩ | ⟨hn, ht⟩
  · exact .inl (.inl ⟨hn, ht⟩)
  · exact .inr ⟨hn, by simpa [finish] using ht.symm⟩

/-- An instruction with one register operand. -/
theorem exec1_next {m : Mnemonic} {a : Byte} {s t : State} {u : Fin 8 → State}
    (h : inRange m s (withReg a s fun ra => finish m (u ra)) = .next t) :
    ExecFault m [a] s t ∨
      (neededAddress m s ≤ 255 ∧ ∃ ra : Fin 8, ra.val = a.toNat ∧ t = (u ra).advance m) := by
  rcases inRange_next h with ⟨hn, ht⟩ | ⟨hn, ht⟩
  · exact .inl (.inl ⟨hn, ht⟩)
  · rcases withReg_next ht with ⟨ha, ht⟩ | ⟨ha, ht⟩
    · exact .inl (.inr ⟨hn, a, by simp [ha], ht⟩)
    · exact .inr ⟨hn, ⟨a.toNat, ha⟩, rfl, by simpa [finish] using ht.symm⟩

/-- An instruction with two register operands. -/
theorem exec2_next {m : Mnemonic} {a b : Byte} {s t : State} {u : Fin 8 → Fin 8 → State}
    (h : inRange m s (withReg a s fun ra => withReg b s fun rb => finish m (u ra rb)) = .next t) :
    ExecFault m [a, b] s t ∨
      (neededAddress m s ≤ 255 ∧ ∃ ra rb : Fin 8, ra.val = a.toNat ∧ rb.val = b.toNat ∧
        t = (u ra rb).advance m) := by
  rcases inRange_next h with ⟨hn, ht⟩ | ⟨hn, ht⟩
  · exact .inl (.inl ⟨hn, ht⟩)
  · rcases withReg_next ht with ⟨ha, ht⟩ | ⟨ha, ht⟩
    · exact .inl (.inr ⟨hn, a, by simp [ha], ht⟩)
    · rcases withReg_next ht with ⟨hb, ht⟩ | ⟨hb, ht⟩
      · exact .inl (.inr ⟨hn, b, by simp [Nat.not_le.mpr ha, hb], ht⟩)
      · exact .inr ⟨hn, ⟨a.toNat, ha⟩, ⟨b.toNat, hb⟩, rfl, rfl, by simpa [finish] using ht.symm⟩

/-- What an instruction can do: raise a fault, or have its effect and advance PC. -/
theorem exec_next {i : Instr} {s t : State} (h : exec i s = .next t) :
    ExecFault i.mnemonic i.registerBytes s t ∨
      (neededAddress i.mnemonic s ≤ 255 ∧ ∃ u, ExecEffect i s u ∧ t = u.advance i.mnemonic) := by
  cases i with
  | hlt => exact (exec0_next h).imp_right fun ⟨hn, ht⟩ => ⟨hn, _, rfl, ht⟩
  | ret => exact (exec0_next h).imp_right fun ⟨hn, ht⟩ => ⟨hn, _, rfl, ht⟩
  | iret => exact (exec0_next h).imp_right fun ⟨hn, ht⟩ => ⟨hn, _, rfl, ht⟩
  | ldi a v => exact (exec1_next h).imp_right fun ⟨hn, ra, ha, ht⟩ => ⟨hn, _, ⟨ra, ha, rfl⟩, ht⟩
  | prn a => exact (exec1_next h).imp_right fun ⟨hn, ra, ha, ht⟩ => ⟨hn, _, ⟨ra, ha, rfl⟩, ht⟩
  | pra a => exact (exec1_next h).imp_right fun ⟨hn, ra, ha, ht⟩ => ⟨hn, _, ⟨ra, ha, rfl⟩, ht⟩
  | push a => exact (exec1_next h).imp_right fun ⟨hn, ra, ha, ht⟩ => ⟨hn, _, ⟨ra, ha, rfl⟩, ht⟩
  | pop a => exact (exec1_next h).imp_right fun ⟨hn, ra, ha, ht⟩ => ⟨hn, _, ⟨ra, ha, rfl⟩, ht⟩
  | call a => exact (exec1_next h).imp_right fun ⟨hn, ra, ha, ht⟩ => ⟨hn, _, ⟨ra, ha, rfl⟩, ht⟩
  | jmp a => exact (exec1_next h).imp_right fun ⟨hn, ra, ha, ht⟩ => ⟨hn, _, ⟨ra, ha, rfl⟩, ht⟩
  | jeq a => exact (exec1_next h).imp_right fun ⟨hn, ra, ha, ht⟩ => ⟨hn, _, ⟨ra, ha, rfl⟩, ht⟩
  | jne a => exact (exec1_next h).imp_right fun ⟨hn, ra, ha, ht⟩ => ⟨hn, _, ⟨ra, ha, rfl⟩, ht⟩
  | add a b => exact (exec2_next h).imp_right fun ⟨hn, ra, rb, ha, hb, ht⟩ => ⟨hn, _, ⟨ra, rb, ha, hb, rfl⟩, ht⟩
  | st a b => exact (exec2_next h).imp_right fun ⟨hn, ra, rb, ha, hb, ht⟩ => ⟨hn, _, ⟨ra, rb, ha, hb, rfl⟩, ht⟩
  | cmp a b => exact (exec2_next h).imp_right fun ⟨hn, ra, rb, ha, hb, ht⟩ => ⟨hn, _, ⟨ra, rb, ha, hb, rfl⟩, ht⟩
  | mul a b => exact (exec2_next h).imp_right fun ⟨hn, ra, rb, ha, hb, ht⟩ => ⟨hn, _, ⟨ra, rb, ha, hb, rfl⟩, ht⟩

end Sys2Proof.Machine
end

