-- ==== Sys2Proof/Laws/PerInstr.lean ====
section
/-! SUPPORT. Statements made per instruction: an encoded instruction has its length in bits 7:6 of its first byte, under
every admissible opcode map (`30_encoding.md` R71, R75(b)). -/

namespace Sys2Proof.Laws.EncodedLength

/-- The encoding is one byte longer than what bits 7:6 of the opcode byte say. -/
def Statement (i : Instr) : Prop :=
  ∀ opc : OpcodeMap, opc.wf → ∃ b0 rest, encodeWith opc i = b0 :: rest ∧ rest.length = b0.toNat / 64

/-- It follows from the operand count of each mnemonic. -/
theorem of_operandCount (i : Instr) : Statement i :=
  fun _ h => ⟨_, _, rfl, (Instr.length_operandBytes i).trans (h.1 _ (Mnemonic.mem_all _)).symm⟩

theorem ldi (a v : Byte) : Statement (.ldi a v) := of_operandCount _
theorem prn (a : Byte) : Statement (.prn a) := of_operandCount _
theorem pra (a : Byte) : Statement (.pra a) := of_operandCount _
theorem hlt : Statement .hlt := of_operandCount _
theorem push (a : Byte) : Statement (.push a) := of_operandCount _
theorem pop (a : Byte) : Statement (.pop a) := of_operandCount _
theorem call (a : Byte) : Statement (.call a) := of_operandCount _
theorem ret : Statement .ret := of_operandCount _
theorem add (a b : Byte) : Statement (.add a b) := of_operandCount _
theorem st (a b : Byte) : Statement (.st a b) := of_operandCount _
theorem iret : Statement .iret := of_operandCount _
theorem jmp (a : Byte) : Statement (.jmp a) := of_operandCount _
theorem cmp (a b : Byte) : Statement (.cmp a b) := of_operandCount _
theorem jeq (a : Byte) : Statement (.jeq a) := of_operandCount _
theorem jne (a : Byte) : Statement (.jne a) := of_operandCount _
theorem mul (a b : Byte) : Statement (.mul a b) := of_operandCount _

end Sys2Proof.Laws.EncodedLength
end

