-- ==== Sys2Proof/Laws/Step.lean ====
section
/-! SUPPORT. What a boundary keeps, and everything a step can do, said once: claims about all steps follow from `step_next` by
cases, without unfolding the tick. -/

namespace Sys2Proof.Machine

/-- The check of `60_exceptions.md` R172 is the condition the statements name. -/
theorem interruptTaken_iff (s : State) : interruptTaken s = true ↔ InterruptDue s := by
  simp only [interruptTaken, InterruptDue, isReg, imReg, Bool.and_eq_true, bne_iff_ne]

theorem interruptTaken_eq_false_iff (s : State) : interruptTaken s = false ↔ ¬ InterruptDue s := by
  rw [← interruptTaken_iff, Bool.not_eq_true]

/-! ### The boundary: it counts, moves the source on, may set bit 0 of R6, and nothing else -/

theorem boundary_eq (s : State) :
    boundary s =
      { s with regs := (boundary s).regs, cycle := s.cycle + 1, irqSource := s.irqSource.past } := by
  rcases boundary_cases s with h | h <;> rw [h]
  rfl

@[simp] theorem boundary_pc (s : State) : (boundary s).pc = s.pc := by rw [boundary_eq]
@[simp] theorem boundary_fl (s : State) : (boundary s).fl = s.fl := by rw [boundary_eq]
@[simp] theorem boundary_jumped (s : State) : (boundary s).jumped = s.jumped := by rw [boundary_eq]
@[simp] theorem boundary_run (s : State) : (boundary s).run = s.run := by rw [boundary_eq]
@[simp] theorem boundary_fcause (s : State) : (boundary s).fcause = s.fcause := by rw [boundary_eq]
@[simp] theorem boundary_finfo (s : State) : (boundary s).finfo = s.finfo := by rw [boundary_eq]
@[simp] theorem boundary_mem (s : State) : (boundary s).mem = s.mem := by rw [boundary_eq]
@[simp] theorem boundary_load (s : State) (x : Byte) : (boundary s).load x = s.load x := by rw [boundary_eq]; rfl
@[simp] theorem boundary_out (s : State) : (boundary s).out = s.out := by rw [boundary_eq]
@[simp] theorem boundary_cycle (s : State) : (boundary s).cycle = s.cycle + 1 := by rw [boundary_eq]
@[simp] theorem boundary_irqSource (s : State) : (boundary s).irqSource = s.irqSource.past := by rw [boundary_eq]
@[simp] theorem boundary_stopped (s : State) : (boundary s).stopped = s.stopped := by rw [boundary_eq]
@[simp] theorem boundary_opc (s : State) : (boundary s).opc = s.opc := by rw [boundary_eq]

theorem boundary_reg (s : State) {k : Fin 8} (hk : k ≠ 6) : (boundary s).reg k = s.reg k := by
  rcases boundary_cases s with h | h <;> rw [h]
  · rfl
  · exact State.reg_setReg_ne _ _ _ _ hk.symm

@[simp] theorem fetch_boundary (s : State) : fetch (boundary s) = fetch s := by
  rw [boundary_eq]
  rfl

/-! ### What a tick and a step can do -/

/-- A tick that does something: it enters the interrupt, runs the fetched instruction, or raises a fault of recognition. -/
def TickEffect (s t : State) : Prop :=
  (InterruptDue s ∧ t = enterInterrupt s) ∨
    (¬ InterruptDue s ∧
      ((∃ i, fetch s = .ok i ∧ exec i s = .next t) ∨
        (∃ ir, fetch s = .error (.unrecognized ir) ∧ t = s.raiseFault .unrecognizedOpcode ir) ∨
        ∃ ir, fetch s = .error (.operandsMissing ir) ∧ t = s.raiseFault .addressRange ir))

/-- What a tick can do: nothing unless RUN is RUNNING. -/
theorem tick_next {s t : State} (h : tick s = .next t) :
    (s.run ≠ .running ∧ t = s) ∨ (s.run = .running ∧ TickEffect s t) := by
  unfold tick at h
  split at h
  · exact .inl ⟨‹_›, by simpa using h.symm⟩
  · rename_i hr
    refine .inr ⟨by simpa using hr, ?_⟩
    split at h
    · exact .inl ⟨(interruptTaken_iff s).mp ‹_›, by simpa using h.symm⟩
    · rename_i hd
      refine .inr ⟨fun due => hd ((interruptTaken_iff s).mpr due), ?_⟩
      unfold fetchAndExecute at h
      split at h
      · exact .inl ⟨_, ‹_›, h⟩
      · exact .inr (.inl ⟨_, ‹_›, by simpa using h.symm⟩)
      · exact .inr (.inr ⟨_, ‹_›, by simpa using h.symm⟩)

/-- What a step can do: nothing once the scheduler has stopped, else a boundary and a tick. -/
theorem step_next {s t : State} (h : step s = .next t) :
    (s.live = false ∧ t = s) ∨ (s.live = true ∧ s.run = .running ∧ TickEffect (boundary s) t) := by
  unfold step runOnce at h
  split at h
  · rename_i hl
    have hr : s.run = .running := by simp [State.live] at hl; exact hl.1
    rcases tick_next h with ⟨hn, _⟩ | ⟨_, he⟩
    · exact absurd ((boundary_run s).trans hr) hn
    · exact .inr ⟨hl, hr, he⟩
  · rename_i hl
    exact .inl ⟨by simpa using hl, by simpa using h.symm⟩

end Sys2Proof.Machine
end

