-- ==== Sys2Proof/Machine/Console.lean ====
section
/-! DEFINITION. The reference rendering of output events (`10_state.md` R33) and of instructions as listings
(`30_encoding.md` R81). Both are outside the core; no step reads them. -/

namespace Sys2Proof.Machine

/-- `(DEC, v)` as the decimal numeral and a line end, `(CHR, v)` as the one character of that code (R33). DESIGN CHOICE:
the line end is the newline character and the character set is Unicode's first 256 codes; log 20. -/
def OutEvent.render : OutEvent → List Char
  | .dec v => Nat.toDigits 10 v.toNat ++ ['\n']
  | .chr v => [Char.ofNat v.toNat]

/-- What a console shows for an output stream. -/
def renderOut (out : List OutEvent) : List Char := out.flatMap OutEvent.render

/-- A mnemonic in capitals. -/
def mnemonicText : Mnemonic → List Char
  | .ldi => ['L', 'D', 'I']
  | .prn => ['P', 'R', 'N']
  | .pra => ['P', 'R', 'A']
  | .hlt => ['H', 'L', 'T']
  | .push => ['P', 'U', 'S', 'H']
  | .pop => ['P', 'O', 'P']
  | .call => ['C', 'A', 'L', 'L']
  | .ret => ['R', 'E', 'T']
  | .add => ['A', 'D', 'D']
  | .st => ['S', 'T']
  | .iret => ['I', 'R', 'E', 'T']
  | .jmp => ['J', 'M', 'P']
  | .cmp => ['C', 'M', 'P']
  | .jeq => ['J', 'E', 'Q']
  | .jne => ['J', 'N', 'E']
  | .mul => ['M', 'U', 'L']

/-- A register operand. -/
def registerText (b : Byte) : List Char := ' ' :: 'R' :: Nat.toDigits 10 b.toNat

/-- An immediate operand, in decimal. -/
def immediateText (b : Byte) : List Char := ' ' :: Nat.toDigits 10 b.toNat

/-- The listing of an instruction: mnemonic, then the operands separated by a space (R81). -/
def listing (i : Instr) : List Char :=
  mnemonicText i.mnemonic ++
    match i with
    | .ldi a v => registerText a ++ immediateText v
    | .prn _ | .pra _ | .hlt | .push _ | .pop _ | .call _ | .ret | .add _ _ | .st _ _ | .iret
    | .jmp _ | .cmp _ _ | .jeq _ | .jne _ | .mul _ _ => i.registerBytes.flatMap registerText

end Sys2Proof.Machine
end

