-- ==== Sys2Proof/Tests/Slice0.lean ====
section
/-! SUPPORT. Tests. Expected results are the spec's: the encodings of `30_encoding.md` R74 and the vectors of
`95_test_vectors.md`, named in each comment. The last part gives, for each statement with hypotheses, states and operands that
meet them, at the boundaries of its clauses. -/

namespace Sys2Proof.Tests

open Sys2Proof Sys2Proof.Machine

/-! ## Helpers -/

/-- The next state an operation answers, if it does. -/
def nextOf : Result → Option State
  | .next s => some s
  | .fault _ => none
  | .refused _ => none

/-- The reset state with other registers, R7 last, and PC at `pc`. -/
def start (regs : Vector Byte 8) (pc : Byte) : State := { State.reset with regs := regs, pc := pc }

/-- Reset registers, PC at `pc`. -/
def atPc (pc : Byte) : State := start State.reset.regs pc

/-- One step with `bytes` placed at PC. -/
def stepOn (bytes : List Byte) (s : State) : Option State := nextOf (step (placeBytes s.pc.toNat bytes s))

/-- One register after a step. -/
def regAfter (bytes : List Byte) (s : State) (k : Fin 8) : Option Byte := (stepOn bytes s).map (·.reg k)

/-- PC after a step. -/
def pcAfter (bytes : List Byte) (s : State) : Option Byte := (stepOn bytes s).map (·.pc)

/-- RUN, FCAUSE, FINFO and PC after a step. -/
def faultAfter (bytes : List Byte) (s : State) : Option (RunState × FaultCause × Byte × Byte) :=
  (stepOn bytes s).map fun t => (t.run, t.fcause, t.finfo, t.pc)

/-- Registers for an interrupt: R5 = IM, R6 = IS, R7 = SP. -/
def interruptRegs (im is sp : Byte) : Vector Byte 8 := #v[0xF8, 0x30, 0x0F, 0x13, 0x14, im, is, sp]

/-- OPC_ALT (G2 of `93_implementation_defined.md`): another admissible opcode map. -/
def opcAlt : OpcodeMap where
  ldi := 0x82
  prn := 0x47
  pra := 0x48
  hlt := 0x01
  push := 0x45
  pop := 0x46
  call := 0x50
  ret := 0x11
  add := 0xA0
  st := 0x84
  iret := 0x13
  jmp := 0x54
  cmp := 0xA7
  jeq := 0x55
  jne := 0x56
  mul := 0xA2

/-! ## Well-formedness refuses each ill-formed term -/

theorem test_wf_refuses_operandA :
    (Instr.ldi 8 0).wf = false ∧ (Instr.prn 8).wf = false ∧ (Instr.pra 255).wf = false ∧ (Instr.push 8).wf = false ∧
      (Instr.pop 8).wf = false ∧ (Instr.call 9).wf = false ∧ (Instr.jmp 8).wf = false ∧ (Instr.jeq 8).wf = false ∧
      (Instr.jne 16).wf = false ∧ (Instr.add 8 0).wf = false ∧ (Instr.st 8 0).wf = false ∧
      (Instr.cmp 8 0).wf = false ∧ (Instr.mul 8 0).wf = false := by decide

theorem test_wf_refuses_operandB :
    (Instr.add 0 8).wf = false ∧ (Instr.st 0 8).wf = false ∧ (Instr.cmp 0 8).wf = false ∧
      (Instr.mul 0 8).wf = false := by decide

theorem test_wf_accepts_any_immediate : (Instr.ldi 7 255).wf = true ∧ Instr.iret.wf = true := by decide

/-- R75(b): the operand count must stand in bits 7:6. -/
theorem test_map_wf_refuses_wrong_count :
    ¬ OpcodeMap.wf { opcDefault with hlt := 0x41 } := by decide

/-- R75(c): two mnemonics must not share a byte. -/
theorem test_map_wf_refuses_shared_byte :
    ¬ OpcodeMap.wf { opcDefault with mul := opcDefault.add } := by decide

/-! ## Decoding: one written-out word per constructor (R74; E1..E4, P1..P4) -/

theorem test_decode_F2 :
    decode 0b10011001 [0b00000011, 0b11111111] = .ok (.ldi 3 255, []) ∧
      decode 0b10101000 [0b00000000, 0b00000001] = .ok (.add 0 1, []) ∧
      decode 0b10011010 [0b00000100, 0b00000000] = .ok (.st 4 0, []) ∧
      decode 0b10100000 [0b00000000, 0b00000010] = .ok (.cmp 0 2, []) ∧
      decode 0b10101010 [0b00000000, 0b00000001] = .ok (.mul 0 1, []) := ⟨rfl, rfl, rfl, rfl, rfl⟩

theorem test_decode_F1 :
    decode 0b01000011 [0b00000000] = .ok (.prn 0, []) ∧ decode 0b01000010 [0b00000000] = .ok (.pra 0, []) ∧
      decode 0b01001101 [0b00000001] = .ok (.push 1, []) ∧ decode 0b01001100 [0b00000111] = .ok (.pop 7, []) ∧
      decode 0b01001000 [0b00000010] = .ok (.call 2, []) ∧ decode 0b01010000 [0b00000010] = .ok (.jmp 2, []) ∧
      decode 0b01010001 [0b00000110] = .ok (.jeq 6, []) ∧ decode 0b01010010 [0b00000011] = .ok (.jne 3, []) :=
  ⟨rfl, rfl, rfl, rfl, rfl, rfl, rfl, rfl⟩

theorem test_decode_F0 :
    decode 0b00000001 [] = .ok (.hlt, []) ∧ decode 0b00001001 [] = .ok (.ret, []) ∧
      decode 0b00001011 [] = .ok (.iret, []) := ⟨rfl, rfl, rfl⟩

/-- E5, E6, E7; and a recognized opcode whose operands are missing. -/
theorem test_decode_rejects :
    decode 0x00 [0, 0] = .error (.unrecognized 0x00) ∧ decode 0xC1 [0, 0] = .error (.unrecognized 0xC1) ∧
      decode 0x41 [0, 0] = .error (.unrecognized 0x41) ∧ decode 0x99 [0] = .error (.operandsMissing 0x99) :=
  ⟨rfl, rfl, rfl, rfl⟩

/-- E8, E9: operand bytes are not examined by decoding. -/
theorem test_decode_keeps_raw_operands :
    decode 0x99 [0x08, 0x05] = .ok (.ldi 8 5, []) ∧ decode 0x99 [0x00, 0xC8] = .ok (.ldi 0 200, []) := ⟨rfl, rfl⟩

/-- A table word's first byte is its low byte; bits from nbits up are 0. -/
theorem test_decodeTableWord :
    decodeTableWord 24 0x050399 = some (.ldi 3 5) ∧ decodeTableWord 8 0x99 = some (.ldi 0 0) ∧
      decodeTableWord 16 0xFF0252 = some (.jne 2) ∧ decodeTableWord 8 0x00 = none := by decide

/-- The first step after reset runs the placed word (P1's first instruction). -/
theorem test_withFetchWord_runs :
    (nextOf (step (State.reset.withFetchWord 24 0x080099))).map (fun t => (t.reg 0, t.pc, t.cycle)) =
      some (8, 3, 1) := by decide

/-- Under OPC_ALT the same program bytes are other instructions (G2): 0x48 is PRA, and 0x43 nothing. -/
theorem test_another_map :
    (stepOn [0x48, 7] { atPc 0 with opc := opcAlt }).map (·.out) = some [.chr 0xF4] ∧
      faultAfter [0x43, 7] { atPc 0 with opc := opcAlt } = some (.faulted, .unrecognizedOpcode, 0x43, 0) ∧
      faultAfter [0x01] { atPc 0xFF with opc := { opcAlt with hlt := 0x02 } } =
        some (.faulted, .unrecognizedOpcode, 0x01, 0xFF) := by decide

/-! ## Arithmetic and compare -/

/-- A1. -/
theorem test_mul_truncates : regAfter [0xAA, 0, 1] (start #v[200, 2, 0, 0, 0, 0, 0, 0xF4] 0) 0 = some 144 := by decide

/-- A3, and MUL leaves R1 and FL alone (A19). -/
theorem test_mul_largest :
    (stepOn [0xAA, 0, 1] { start #v[255, 255, 0, 0, 0, 0, 0, 0xF4] 0 with fl := 1 }).map
      (fun t => (t.reg 0, t.reg 1, t.fl, t.pc)) = some (1, 255, 1, 3) := by decide

/-- A7. -/
theorem test_add_wraps :
    (stepOn [0xA8, 0, 1] (start #v[250, 10, 0, 0, 0, 0, 0, 0xF4] 0)).map (fun t => (t.reg 0, t.reg 1, t.fl)) =
      some (4, 10, 0) := by decide

/-- A10: the source is also the destination. -/
theorem test_add_doubles : regAfter [0xA8, 3, 3] (start #v[0, 0, 0, 128, 0, 0, 0, 0xF4] 0) 3 = some 0 := by decide

/-- A16: the comparison is unsigned. -/
theorem test_cmp_unsigned :
    (stepOn [0xA0, 0, 1] (start #v[128, 127, 0, 0, 0, 0, 0, 0xF4] 0)).map (·.fl) = some 0x02 := by decide

/-- A18: all eight bits of FL are rewritten. -/
theorem test_cmp_rewrites_fl :
    (stepOn [0xA0, 0, 1] { start #v[1, 2, 0, 0, 0, 0, 0, 0xF4] 0 with fl := 0xFF }).map (·.fl) = some 0x04 := by decide

/-! ## Load, store, output -/

/-- L3: R7 is an ordinary destination. -/
theorem test_ldi_moves_the_stack : regAfter [0x99, 7, 0x80] (atPc 0) 7 = some 0x80 := by decide

/-- L4. -/
theorem test_st_writes_the_vector :
    (stepOn [0x9A, 0, 1] (start #v[0xF8, 0x20, 0, 0, 0, 0, 0, 0xF4] 0)).map (fun t => (t.load 0xF8, t.load 0x20)) =
      some (0x20, 0) := by decide

/-- L9: a stored byte is fetched by the next tick. -/
theorem test_st_is_seen_by_fetch :
    (stepOn [0x9A, 0, 1] (start #v[3, 1, 0, 0, 0, 0, 0, 0xF4] 0)).map (fun t => fetch t == .ok .hlt) =
      some true := by decide

/-- L6, L7. -/
theorem test_prn_emits_unsigned :
    (stepOn [0x43, 0] (start #v[255, 0, 0, 0, 0, 0, 0, 0xF4] 0)).map (·.out) = some [.dec 255] := by decide

/-- L8, after an earlier event. -/
theorem test_pra_appends :
    (stepOn [0x42, 0] { start #v[0x41, 0, 0, 0, 0, 0, 0, 0xF4] 0 with out := [.dec 8] }).map (·.out) =
      some [.dec 8, .chr 0x41] := by decide

/-! ## Stack -/

/-- K3: the push wraps. -/
theorem test_push_wraps :
    (stepOn [0x4D, 0] (start #v[0x11, 0, 0, 0, 0, 0, 0, 0] 8)).map (fun t => (t.reg 7, t.load 0xFF)) =
      some (0xFF, 0x11) := by decide

/-- K5: PUSH R7 stores the old SP. -/
theorem test_push_sp :
    (stepOn [0x4D, 7] (atPc 0)).map (fun t => (t.reg 7, t.load 0xF3)) = some (0xF3, 0xF4) := by decide

/-- K4: the pop wraps. -/
theorem test_pop_wraps :
    (stepOn [0x4C, 1] ((start #v[0, 0, 0, 0, 0, 0, 0, 0xFF] 0).store 0xFF 0x11)).map (fun t => (t.reg 1, t.reg 7)) =
      some (0x11, 0) := by decide

/-- K6: POP R7 ends with the popped byte. -/
theorem test_pop_sp :
    regAfter [0x4C, 7] ((start #v[0, 0, 0, 0, 0, 0, 0, 0xF3] 0).store 0xF3 0x2A) 7 = some 0x2A := by decide

/-! ## Control transfer -/

/-- J1, F11: JMP to itself; JMP at 0xFE is legal. -/
theorem test_jmp :
    pcAfter [0x50, 2] (start #v[0, 0, 0x0F, 0, 0, 0, 0, 0xF4] 0x0F) = some 0x0F ∧
      pcAfter [0x50, 0] (atPc 0xFE) = some 0 := by decide

/-- J3, J8. -/
theorem test_jeq :
    pcAfter [0x51, 2] { start #v[0, 0, 0x30, 0, 0, 0, 0, 0xF4] 0x10 with fl := 4 } = some 0x12 ∧
      pcAfter [0x51, 2] { start #v[0, 0, 0x30, 0, 0, 0, 0, 0xF4] 0x10 with fl := 0xFF } = some 0x30 := by decide

/-- J4, J5. -/
theorem test_jne :
    pcAfter [0x52, 3] { start #v[0, 0, 0, 0x0C, 0, 0, 0, 0xF4] 0x14 with fl := 4 } = some 0x0C ∧
      pcAfter [0x52, 3] { start #v[0, 0, 0, 0x0C, 0, 0, 0, 0xF4] 0x14 with fl := 1 } = some 0x16 := by decide

/-- J11: CALL R7 jumps to the decremented SP. -/
theorem test_call_sp :
    (stepOn [0x48, 7] (atPc 0)).map (fun t => (t.load 0xF3, t.reg 7, t.pc)) = some (2, 0xF3, 0xF3) := by decide

/-- J12: CALL at 0xFD. -/
theorem test_call_at_top :
    (stepOn [0x48, 1] (start #v[0, 0x10, 0, 0, 0, 0, 0, 0xF4] 0xFD)).map (fun t => (t.load 0xF3, t.pc)) =
      some (0xFF, 0x10) := by decide

/-- F16: RET at the last address. -/
theorem test_ret_at_top :
    (stepOn [0x09] ((start #v[0, 0, 0, 0, 0, 0, 0, 0xF3] 0xFF).store 0xF3 0x10)).map (fun t => (t.pc, t.reg 7)) =
      some (0x10, 0xF4) := by decide

/-! ## System instructions -/

/-- Y1. -/
theorem test_hlt : faultAfter [0x01] (atPc 5) = some (.halted, .none, 0, 6) := by decide

/-- K8: IRET with R7 = 0xEB. -/
theorem test_iret :
    (stepOn [0x0B] (placeBytes 0xEB [0x00, 0x01, 0x00, 0x00, 0x0F, 0x20, 0xF8, 0xFF, 0x0F]
      (start #v[9, 9, 9, 9, 9, 0, 0, 0xEB] 0x25))).map (fun t => (t.regs, t.fl, t.pc)) =
      some (#v[0xF8, 0x20, 0x0F, 0, 0, 0x01, 0x00, 0xF4], 0xFF, 0x0F) := by decide

/-! ## The interrupt -/

/-- I1..I8: (IS, IM) and whether the interrupt is taken. -/
theorem test_interrupt_check :
    ([(0x00, 0x00), (0x01, 0x00), (0x00, 0x01), (0x01, 0x01), (0x03, 0x02), (0x02, 0x02), (0x01, 0xFE), (0xFF, 0x80)] :
      List (Byte × Byte)).map (fun p => interruptTaken (start (interruptRegs p.2 p.1 0xF4) 0)) =
      [false, false, false, true, true, false, false, true] := by decide

/-- I9 and K7: the frame from the top, then SP, IS and PC. -/
theorem test_entry_frame :
    (nextOf (step ((start #v[0xF8, 0x20, 0x0F, 0, 0, 1, 1, 0xF4] 0x0F).store 0xF8 0x20))).map (fun t =>
      ([0xF3, 0xF2, 0xF1, 0xF0, 0xEF, 0xEE, 0xED, 0xEC, 0xEB].map t.load, t.reg 7, t.reg 6, t.pc)) =
      some ([0x0F, 0x00, 0xF8, 0x20, 0x0F, 0, 0, 0x01, 0x00], 0xEB, 0x00, 0x20) := by decide

/-- I10: the vector is read after the pushes. -/
theorem test_entry_over_the_vector :
    (nextOf (step (start #v[0, 0x30, 0, 0, 0, 1, 1, 0xFC] 0x0C))).map (fun t => (t.load 0xF8, t.pc, t.reg 7)) =
      some (0x30, 0x30, 0xF3) := by decide

/-- The timer's first assertion precedes the 1000th tick (R180); a scheduled IRQ precedes its tick. -/
theorem test_sources :
    (IrqSource.timer 1000).asserts 999 = false ∧ (IrqSource.timer 1000).asserts 1000 = true ∧
      (boundary { State.reset with irqSource := .free [true, false] }).reg 6 = 1 ∧
      (boundary { State.reset with irqSource := .free [true, false] }).irqSource = .free [false] := by decide

/-! ## Fatal faults -/

/-- F1, F2. -/
theorem test_fault_unrecognized :
    faultAfter [] (atPc 0) = some (.faulted, .unrecognizedOpcode, 0x00, 0) ∧
      faultAfter [0xC7] (atPc 0xFF) = some (.faulted, .unrecognizedOpcode, 0xC7, 0xFF) := by decide

/-- F7, F8, F9. -/
theorem test_fault_address_successor :
    faultAfter [0x43, 0] (atPc 0xFE) = some (.faulted, .addressRange, 0x43, 0xFE) ∧
      faultAfter [0x01] (atPc 0xFF) = some (.faulted, .addressRange, 0x01, 0xFF) ∧
      faultAfter [0x99, 1, 7] (atPc 0xFD) = some (.faulted, .addressRange, 0x99, 0xFD) := by decide

/-- F12, F13, F14. -/
theorem test_fault_address_control :
    faultAfter [0x50] (atPc 0xFF) = some (.faulted, .addressRange, 0x50, 0xFF) ∧
      faultAfter [0x48, 1] (atPc 0xFE) = some (.faulted, .addressRange, 0x48, 0xFE) ∧
      faultAfter [0x51, 0] (atPc 0xFE) = some (.faulted, .addressRange, 0x51, 0xFE) := by decide

/-- F3, F4, F5, F6. -/
theorem test_fault_register :
    faultAfter [0x99, 8, 5] (atPc 0) = some (.faulted, .registerIndex, 8, 0) ∧
      faultAfter [0xA8, 8, 9] (atPc 0) = some (.faulted, .registerIndex, 8, 0) ∧
      faultAfter [0xA8, 1, 9] (atPc 0) = some (.faulted, .registerIndex, 9, 0) ∧
      faultAfter [0x51, 9] (atPc 0) = some (.faulted, .registerIndex, 9, 0) := by decide

/-- STATUS after P5(b): RUN = 2, FCAUSE = 3, FINFO = 8 (R31, R36). -/
theorem test_status : (stepOn [0x99, 8, 5] (atPc 0)).map status = some (2, 3, 8) := by decide

/-! ## Memory, loader, console -/

/-- Writing the unlisted byte removes the entry; the list stays sorted. -/
theorem test_memory_canonical :
    Memory.write (Memory.write (Memory.write [] 5 1) 3 2) 9 4 = [(3, 2), (5, 1), (9, 4)] ∧
      Memory.write [(3, 2), (5, 1)] 3 0 = [(5, 1)] := by decide

/-- R82: the default program is P1's six bytes. -/
theorem test_default_program : defaultProgram opcDefault = [0x99, 0x00, 0x08, 0x43, 0x00, 0x01] := by decide

/-- R82: a comment line is skipped, the first digit is bit 7, a short line is refused. -/
theorem test_program_text :
    readText [['#'], ['1', '0', '0', '1', '1', '0', '0', '1'], [], ['0', '0', '0', '0', '0', '0', '1', '0']] =
      some [0x99, 0x02] ∧ readText [['1', '0']] = none := by decide

/-- R33 and R81: renderings. -/
theorem test_renderings :
    renderOut [.dec 8, .chr 0x41] = ['8', '\n', 'A'] ∧
      listing (.ldi 0 8) = ['L', 'D', 'I', ' ', 'R', '0', ' ', '8'] := by decide

/-! ## Witnesses: the hypotheses of each statement are met -/

/-- A running state with interrupt due and one without, at any PC. -/
def dueState : State := (start (interruptRegs 1 1 0xF4) 0x0F).store 0xF8 0x20

theorem witness_EveryStepKeepsTheBoundaryInvariant : ∃ s t : State, s.Inv ∧ step s = .next t ∧ s.run = .running :=
  ⟨placeBytes 0 [0x4D, 1] (atPc 0), _, by decide, rfl, rfl⟩

theorem witness_EveryTransactionSequenceKeepsTheInvariant : ∃ s t : State, s.Inv ∧
    transactAll [.reset, .load 0 0x4D, .load 1 1, .irq, .tick, .stop, .tick] s = .next t :=
  ⟨dueState, _, by decide, rfl⟩

theorem witness_CanonicalMemoriesThatReadAlikeAreEqual : ∃ m n : Memory, m.wf ∧ n.wf ∧ (∀ x : Byte, m.read x = n.read x) :=
  ⟨[(3, 2), (255, 1)], [(3, 2), (255, 1)], by decide, by decide, fun _ => rfl⟩

theorem witness_DecodingAnEncodedInstructionGivesItBack : opcDefault.wf ∧ opcAlt.wf := by decide

theorem witness_DecodedBytesAreTheEncoding : decodeWith opcDefault 0xA8 [1, 2, 3] = .ok (.add 1 2, [3]) := rfl

theorem witness_DecodingIsExactlyOneOfThree : opcDefault.wf ∧
    decodeWith opcDefault 0xFF [] = .error (.unrecognized 0xFF) ∧
    decodeWith opcDefault 0xA8 [1] = .error (.operandsMissing 0xA8) ∧
    decodeWith opcDefault 0xA8 [1, 2] = .ok (.add 1 2, []) := ⟨by decide, rfl, rfl, rfl⟩

theorem witness_LengthComesFromTheOpcodeBits : opcDefault.wf ∧
    decodeWith opcDefault 0x09 [] = .ok (.ret, []) ∧ (0xC0 : Byte).toNat / 64 = 3 := ⟨by decide, rfl, by decide⟩

theorem witness_TheFetchReadsTheBytesAtPc :
    let s := placeBytes 0xFD [0xA0, 1, 2] { atPc 0xFD with opc := opcAlt }
    s.opc.wf ∧ s.pc.toNat + (Instr.add 1 2).operandBytes.length ≤ 255 ∧ s.load s.pc = s.opc.byte .add ∧
      ∀ (k : Nat) (h : k < (Instr.add 1 2).operandBytes.length),
        s.load (BitVec.ofNat 8 (s.pc.toNat + 1 + k)) = (Instr.add 1 2).operandBytes[k] := by
  refine ⟨by decide, by decide, by decide, ?_⟩
  intro k h
  have hk : k = 0 ∨ k = 1 := by simp [Instr.operandBytes] at h; omega
  rcases hk with rfl | rfl <;> rfl

theorem witness_AStepRunsTheDecodedInstruction :
    let s := placeBytes 0xFC [0xA8, 1, 2] { atPc 0xFC with irqSource := .free [true] }
    s.run = .running ∧ s.stopped = false ∧ ¬ InterruptDue (boundary s) ∧ fetch s = .ok (.add 1 2) :=
  ⟨rfl, rfl, by decide, rfl⟩

theorem witness_NothingHappensOnceNotRunning :
    ({ atPc 0 with run := .halted }).run ≠ .running ∧ ({ atPc 0 with run := .faulted }).run ≠ .running := by decide

theorem witness_OnlyResetLeavesAStoppedRun : ∃ t, ({ atPc 0 with run := .halted }).run ≠ .running ∧
    (∀ x ∈ [Transaction.tick, .irq, .stop, .irq], x = .tick ∨ x = .irq ∨ x = .stop) ∧
    transactAll [.tick, .irq, .stop, .irq] { atPc 0 with run := .halted } = .next t :=
  ⟨_, by decide, by decide, rfl⟩

theorem witness_UnrecognizedOpcodeIsRaised :
    let s := placeBytes 0xFF [0xC7] (atPc 0xFF)
    s.run = .running ∧ ¬ InterruptDue s ∧ ∀ m, s.opc.byte m ≠ s.load s.pc :=
  ⟨rfl, by decide, fun m => by cases m <;> decide⟩

/-- On both sides of the limit of ADD. -/
theorem witness_AddressRangeIsRaisedExactlyAsTabled :
    let s := placeBytes 0xFC [0xA8] (atPc 0xFC)
    let t := placeBytes 0xFD [0xA8] (atPc 0xFD)
    (s.opc.wf ∧ s.run = .running ∧ ¬ InterruptDue s ∧ s.load s.pc = s.opc.byte .add ∧ ¬ lastAddress .add s.fl[0] < s.pc.toNat) ∧
      (t.opc.wf ∧ t.run = .running ∧ ¬ InterruptDue t ∧ t.load t.pc = t.opc.byte .add ∧ lastAddress .add t.fl[0] < t.pc.toNat) := by
  decide

/-- A bad operandA, a bad operandB, and a well-formed instruction, at the last legal address. -/
theorem witness_RegisterIndexIsRaisedExactlyOnABadOperand :
    let s (a b : Byte) := placeBytes 0xFC [0xA8, a, b] (atPc 0xFC)
    (∀ a b : Byte, (s a b).run = .running) ∧ ¬ InterruptDue (s 8 9) ∧ ¬ InterruptDue (s 7 8) ∧ ¬ InterruptDue (s 7 7) ∧
      fetch (s 8 9) = .ok (.add 8 9) ∧ (Instr.add 8 9).registerBytes.find? (fun b => 8 ≤ b.toNat) = some 8 ∧
      fetch (s 7 8) = .ok (.add 7 8) ∧ (Instr.add 7 8).registerBytes.find? (fun b => 8 ≤ b.toNat) = some 8 ∧
      fetch (s 7 7) = .ok (.add 7 7) ∧ (Instr.add 7 7).wf = true ∧
      (s 7 7).pc.toNat ≤ lastAddress .add (s 7 7).fl[0] :=
  ⟨fun _ _ => rfl, by decide, by decide, by decide, rfl, rfl, rfl, rfl, rfl, rfl, by decide⟩

/-- A fault of each kind. -/
theorem witness_FaultsArePrecise :
    (∃ s t : State, s.run = .running ∧ tick s = .next t ∧ t.run = .faulted ∧ t.fcause = .registerIndex) ∧
      ∃ s t : State, s.run = .running ∧ tick s = .next t ∧ t.run = .faulted ∧ t.fcause = .addressRange :=
  ⟨⟨placeBytes 0 [0x99, 8, 5] (atPc 0), _, rfl, rfl, rfl, rfl⟩,
    ⟨placeBytes 0xFE [0x43, 0] (atPc 0xFE), _, rfl, rfl, rfl, rfl⟩⟩

/-- Due with IM bit 0 clear, and not due with IS bit 0 clear (I5, I6). -/
theorem witness_TheInterruptIsTakenExactlyWhenDue :
    (atPc 0).run = .running ∧ InterruptDue (start (interruptRegs 2 3 0xF4) 0) ∧
      ¬ InterruptDue (start (interruptRegs 2 2 0xF4) 0) := by decide

theorem witness_InterruptEntrySavesNineBytesAndLoadsTheVector :
    dueState.run = .running ∧ InterruptDue dueState ∧
      (start (interruptRegs 1 1 0x04) 9).run = .running ∧ InterruptDue (start (interruptRegs 1 1 0x04) 9) := by decide

theorem witness_IretUndoesAnInterruptEntry : ∃ t u : State, dueState.run = .running ∧ InterruptDue dueState ∧
    tick dueState = .next t ∧ u.reg 7 = t.reg 7 ∧ u.pc ≠ t.pc ∧
    (∀ k : Nat, k < 9 → u.load (t.reg 7 + BitVec.ofNat 8 k) = t.load (t.reg 7 + BitVec.ofNat 8 k)) :=
  ⟨enterInterrupt dueState, { enterInterrupt dueState with pc := 0x25 }, rfl, by decide, rfl, rfl, by decide, fun _ _ => rfl⟩

theorem witness_AssertionsSetThePendingBitAndMerge : (atPc 0).stopped = false := rfl

theorem witness_AnInterruptNestsOnlyWhenAssertedAgain : ∃ t, dueState.run = .running ∧ InterruptDue dueState ∧
    tick dueState = .next t ∧ (dueState.reg 5)[0] = true := ⟨_, rfl, by decide, rfl, by decide⟩

/-- The tick before and the tick of an assertion. -/
theorem witness_TheReferenceTimerAssertsEveryPeriod :
    let s := { atPc 0 with cycle := 999 }
    s.run = .running ∧ s.stopped = false ∧ s.irqSource = .timer 1000 ∧ 1000 ∣ s.cycle + 1 ∧ ¬ 1000 ∣ (998 + 1) := by decide

/-- The three-byte register forms (MUL, ADD, CMP, ST): each clause at its boundary, for `a` and `b` in 7 and 8. -/
theorem witness_threeByteForms :
    (atPc 252).jumped = false ∧ (atPc 252).pc.toNat ≤ 252 ∧ 252 < (atPc 253).pc.toNat ∧
      (7 : Byte).toNat < 8 ∧ 8 ≤ (8 : Byte).toNat ∧
      (nextOf (exec (.mul 7 7) (atPc 252))).map (·.run) = some .running ∧
      (nextOf (exec (.add 7 7) (atPc 252))).map (·.run) = some .running ∧
      (nextOf (exec (.cmp 7 7) (atPc 252))).map (·.run) = some .running ∧
      (nextOf (exec (.st 7 7) (atPc 252))).map (·.run) = some .running := by decide

theorem witness_MulKeepsTheLowByteOfTheProduct :
    (nextOf (exec (.mul 7 7) (atPc 253))).map (·.fcause) = some .addressRange ∧
      (nextOf (exec (.mul 8 8) (atPc 252))).map (·.finfo) = some 8 ∧
      (nextOf (exec (.mul 7 9) (atPc 252))).map (·.finfo) = some 9 := by decide

theorem witness_AddWrapsModulo256 :
    (nextOf (exec (.add 7 7) (atPc 253))).map (·.fcause) = some .addressRange ∧
      (nextOf (exec (.add 8 8) (atPc 252))).map (·.finfo) = some 8 ∧
      (nextOf (exec (.add 7 9) (atPc 252))).map (·.finfo) = some 9 := by decide

/-- With each of less, greater and equal. -/
theorem witness_CmpWritesExactlyOneFlag :
    (nextOf (exec (.cmp 0 7) (atPc 252))).map (·.fl) = some 4 ∧ (nextOf (exec (.cmp 7 0) (atPc 252))).map (·.fl) = some 2 ∧
      (nextOf (exec (.cmp 7 7) (atPc 252))).map (·.fl) = some 1 ∧
      (nextOf (exec (.cmp 8 8) (atPc 252))).map (·.finfo) = some 8 ∧
      (nextOf (exec (.cmp 7 9) (atPc 252))).map (·.finfo) = some 9 ∧
      (nextOf (exec (.cmp 7 7) (atPc 253))).map (·.fcause) = some .addressRange := by decide

theorem witness_LdiLoadsTheImmediate :
    (nextOf (exec (.ldi 7 255) (atPc 252))).map (·.reg 7) = some 255 ∧
      (nextOf (exec (.ldi 8 255) (atPc 252))).map (·.finfo) = some 8 ∧
      (nextOf (exec (.ldi 7 255) (atPc 253))).map (·.finfo) = some 0x99 := by decide

theorem witness_StStoresOneByte :
    (nextOf (exec (.st 7 7) (atPc 252))).map (·.load 0xF4) = some 0xF4 ∧
      (nextOf (exec (.st 8 8) (atPc 252))).map (·.finfo) = some 8 ∧
      (nextOf (exec (.st 7 9) (atPc 252))).map (·.finfo) = some 9 ∧
      (nextOf (exec (.st 7 7) (atPc 253))).map (·.finfo) = some 0x9A := by decide

/-- The two-byte forms that never transfer, and CALL: legal at 253, not at 254. -/
theorem witness_PrnAppendsADecimalEvent :
    (nextOf (exec (.prn 7) (atPc 253))).map (·.out) = some [.dec 0xF4] ∧
      (nextOf (exec (.prn 8) (atPc 253))).map (·.finfo) = some 8 ∧
      (nextOf (exec (.prn 7) (atPc 254))).map (·.finfo) = some 0x43 := by decide

theorem witness_PraAppendsACharacterEvent :
    (nextOf (exec (.pra 7) (atPc 253))).map (·.out) = some [.chr 0xF4] ∧
      (nextOf (exec (.pra 8) (atPc 253))).map (·.finfo) = some 8 ∧
      (nextOf (exec (.pra 7) (atPc 254))).map (·.finfo) = some 0x42 := by decide

theorem witness_PushStoresBelowTheStackPointer :
    (nextOf (exec (.push 7) (atPc 253))).map (·.run) = some .running ∧
      (nextOf (exec (.push 8) (atPc 253))).map (·.finfo) = some 8 ∧
      (nextOf (exec (.push 7) (atPc 254))).map (·.finfo) = some 0x4D := by decide

theorem witness_PopLoadsFromTheStackPointer :
    (nextOf (exec (.pop 7) (atPc 253))).map (·.run) = some .running ∧
      (nextOf (exec (.pop 8) (atPc 253))).map (·.finfo) = some 8 ∧
      (nextOf (exec (.pop 7) (atPc 254))).map (·.finfo) = some 0x4C := by decide

theorem witness_CallPushesTheReturnAddress :
    (nextOf (exec (.call 7) (atPc 253))).map (·.run) = some .running ∧
      (nextOf (exec (.call 8) (atPc 253))).map (·.finfo) = some 8 ∧
      (nextOf (exec (.call 7) (atPc 254))).map (·.finfo) = some 0x48 := by decide

/-- RET and IRET have no operand and run at every address, 0xFF and a wrapping SP included. -/
theorem witness_RetPopsPc :
    (start #v[0, 0, 0, 0, 0, 0, 0, 0xFF] 0xFF).jumped = false ∧
      (nextOf (exec .ret (start #v[0, 0, 0, 0, 0, 0, 0, 0xFF] 0xFF))).map (·.reg 7) = some 0 := by decide

theorem witness_IretPopsNineBytes :
    (start #v[0, 0, 0, 0, 0, 0, 0, 0xFF] 0xFF).jumped = false ∧
      (nextOf (exec .iret (start #v[0, 0, 0, 0, 0, 0, 0, 0xFF] 0xFF))).map (·.reg 7) = some 8 := by decide

theorem witness_JmpLoadsPc :
    (nextOf (exec (.jmp 7) (atPc 254))).map (·.pc) = some 0xF4 ∧
      (nextOf (exec (.jmp 8) (atPc 254))).map (·.finfo) = some 8 ∧
      (nextOf (exec (.jmp 7) (atPc 255))).map (·.finfo) = some 0x50 := by decide

/-- Taken and not taken, each clause at its boundary. -/
theorem witness_JeqJumpsIfEqual :
    (nextOf (exec (.jeq 7) { atPc 254 with fl := 1 })).map (·.pc) = some 0xF4 ∧
      (nextOf (exec (.jeq 8) { atPc 254 with fl := 1 })).map (·.finfo) = some 8 ∧
      (nextOf (exec (.jeq 7) { atPc 255 with fl := 1 })).map (·.finfo) = some 0x51 ∧
      (nextOf (exec (.jeq 7) (atPc 253))).map (·.pc) = some 255 ∧
      (nextOf (exec (.jeq 8) (atPc 253))).map (·.finfo) = some 8 ∧
      (nextOf (exec (.jeq 7) (atPc 254))).map (·.finfo) = some 0x51 := by decide

theorem witness_JneJumpsIfNotEqual :
    (nextOf (exec (.jne 7) (atPc 254))).map (·.pc) = some 0xF4 ∧
      (nextOf (exec (.jne 8) (atPc 254))).map (·.finfo) = some 8 ∧
      (nextOf (exec (.jne 7) (atPc 255))).map (·.finfo) = some 0x52 ∧
      (nextOf (exec (.jne 7) { atPc 253 with fl := 1 })).map (·.pc) = some 255 ∧
      (nextOf (exec (.jne 8) { atPc 253 with fl := 1 })).map (·.finfo) = some 8 ∧
      (nextOf (exec (.jne 7) { atPc 254 with fl := 1 })).map (·.finfo) = some 0x52 := by decide

theorem witness_HltHaltsAndAdvances :
    (nextOf (exec .hlt (atPc 254))).map (·.run) = some .halted ∧
      (nextOf (exec .hlt (atPc 255))).map (·.run) = some .faulted := by decide

theorem witness_RegisterWritersChangeOnlyTheirRegister : ∃ t u v w,
    exec (.ldi 1 9) (atPc 0) = .next t ∧ exec (.add 1 7) (atPc 0) = .next u ∧ exec (.mul 1 7) (atPc 0) = .next v ∧
      exec (.add 8 7) (atPc 0) = .next w := ⟨_, _, _, _, rfl, rfl, rfl, rfl⟩

theorem witness_NonStoringFormsChangeNoRegisterAndNoCell : ∃ t1 t2 t3 t4 t5 t6 t7,
    exec (.cmp 1 7) (atPc 0) = .next t1 ∧ exec (.prn 1) (atPc 0) = .next t2 ∧ exec (.pra 1) (atPc 0) = .next t3 ∧
      exec .hlt (atPc 0) = .next t4 ∧ exec (.jmp 1) (atPc 0) = .next t5 ∧ exec (.jeq 1) (atPc 0) = .next t6 ∧
      exec (.jne 1) (atPc 0) = .next t7 := ⟨_, _, _, _, _, _, _, rfl, rfl, rfl, rfl, rfl, rfl, rfl⟩

theorem witness_StoringFormsChangeOnlyTheirCell : ∃ t u v w,
    exec (.st 1 7) (atPc 0) = .next t ∧ exec (.push 1) (atPc 0) = .next u ∧ exec (.call 1) (atPc 0) = .next v ∧
      exec (.st 8 7) (atPc 0) = .next w := ⟨_, _, _, _, rfl, rfl, rfl, rfl⟩

theorem witness_PoppingFormsChangeNoCell : ∃ t u v,
    exec (.pop 1) (atPc 0) = .next t ∧ exec .ret (atPc 0) = .next u ∧ exec .iret (atPc 0) = .next v :=
  ⟨_, _, _, rfl, rfl, rfl⟩

theorem witness_OnlyCmpAndIretChangeTheFlags : ∃ t, step (placeBytes 0 [0xA0, 0, 7] (atPc 0)) = .next t ∧
    t.fl ≠ (placeBytes 0 [0xA0, 0, 7] (atPc 0)).fl := ⟨_, rfl, by decide⟩

theorem witness_OutputGrowsOnlyByPrnAndPra : ∃ t, step (placeBytes 0 [0x43, 7] (atPc 0)) = .next t ∧
    t.out = [.dec 0xF4] := ⟨_, rfl, by decide⟩

/-- A store, a push, a call and an interrupt entry each change a cell. -/
theorem witness_OnlyTheListedWritesChangeMemory :
    (stepOn [0x9A, 7, 7] (atPc 0)).map (·.load 0xF4) = some 0xF4 ∧ (stepOn [0x4D, 7] (atPc 0)).map (·.load 0xF3) = some 0xF4 ∧
      (stepOn [0x48, 7] (atPc 0)).map (·.load 0xF3) = some 2 ∧ (nextOf (step dueState)).map (·.load 0xF3) = some 0x0F := by
  decide

theorem witness_OnlyHltHalts :
    (stepOn [0x01] (atPc 0)).map (·.run) = some .halted ∧ (stepOn [0x00] (atPc 0)).map (·.run) = some .faulted := by decide

theorem witness_TheOutputStreamIsNeverRead : ∃ t, step (placeBytes 0 [0x43, 7] (atPc 0)) = .next t := ⟨_, rfl⟩

theorem witness_NothingChangesTheOpcodeMap :
    (nextOf (transactAll [.load 0 0x48, .tick, .irq, .stop, .reset] { atPc 0 with opc := opcAlt })).map (·.opc) =
      some opcAlt ∧ (stepOn [0x48, 7] { atPc 0 with opc := opcAlt }).map (·.opc) = some opcAlt := by decide

theorem witness_LdiThenPrnEmitsTheValue :
    (atPc 250).jumped = false ∧ (atPc 250).pc.toNat ≤ 250 ∧ (7 : Byte).toNat < 8 := by decide

theorem witness_PushThenPopReturnsTheValue :
    (atPc 251).jumped = false ∧ (atPc 251).pc.toNat ≤ 251 ∧ (7 : Byte).toNat < 8 ∧ (6 : Byte).toNat < 7 := by decide

theorem witness_RetReturnsBehindTheCall :
    (atPc 253).jumped = false ∧ (atPc 253).pc.toNat ≤ 253 ∧ (7 : Byte).toNat < 8 ∧
      ∃ t, exec (.call 7) (atPc 253) = .next t := ⟨rfl, by decide, by decide, _, rfl⟩

theorem witness_LoadWritesOneByteBeforeLaunch :
    (atPc 0).cycle = 0 ∧ ({ atPc 0 with cycle := 1 }).cycle ≠ 0 ∧
      (nextOf (transact (.load 255 7) (atPc 0))).map (·.load 255) = some 7 ∧
      nextOf (transact (.load 256 7) (atPc 0)) = none := by decide

theorem witness_ALoadedProgramStandsFromAddressZero :
    (atPc 0).cycle = 0 ∧ (defaultProgram opcDefault).length ≤ 256 ∧
      (nextOf (loadProgram (defaultProgram opcDefault) (atPc 0))).map (fun t => (t.load 0, t.load 5, t.load 6)) =
        some (0x99, 0x01, 0) := by decide

end Sys2Proof.Tests
end

