-- ==== Sys2Proof/Proofs/Memory.lean ====
section
/-! PROOFS. Sequences of writes, and the memory statement of `20_memory.md` R51. -/

namespace Sys2Proof.Machine

/-! ### Any sequence of writes -/

/-- The last entry for `x` in a list headed by a write to `w.1` is the last one in the tail, or else that write. -/
theorem lastWrite_cons {κ ν : Type} [DecidableEq κ] (w : κ × ν) (ws : List (κ × ν)) (x : κ) (d : ν) :
    ((((w :: ws).filter fun w => w.1 == x).getLast?).map Prod.snd).getD d =
      (((ws.filter fun w => w.1 == x).getLast?).map Prod.snd).getD (if x = w.1 then w.2 else d) := by
  by_cases h : x = w.1
  · subst h
    simp [List.getLast?_cons, Option.getD_map]
  · have hne : ¬ w.1 = x := fun e => h e.symm
    simp [h, hne]

/-- Independent cells: where one write is seen by a read of its own cell and by no other, a read after any sequence of
writes gives the last one to its cell, or what was there at first. -/
theorem read_foldl_write {σ κ ν : Type} [DecidableEq κ] {write : σ → κ → ν → σ} {read : σ → κ → ν}
    (read_write : ∀ s a b v, read (write s a v) b = if b = a then v else read s b)
    (writes : List (κ × ν)) (s : σ) (x : κ) :
    read (writes.foldl (fun s w => write s w.1 w.2) s) x =
      (((writes.filter fun w => w.1 == x).getLast?).map Prod.snd).getD (read s x) := by
  induction writes generalizing s with
  | nil => rfl
  | cons w ws ih => rw [List.foldl_cons, ih, read_write, lastWrite_cons]

/-- The frame of a sequence of stores: one store replaces `mem` alone, so the first of them drops out of the rest's
frame. -/
theorem State.foldl_store_frame (writes : List (Byte × Byte)) (s : State) :
    writes.foldl (fun s w => s.store w.1 w.2) s =
      { s with mem := (writes.foldl (fun s w => s.store w.1 w.2) s).mem } := by
  induction writes generalizing s with
  | nil => rfl
  | cons w ws ih => exact ih (s.store w.1 w.2)

/-- Settles O6: the read by the law of one store (`State.load_store`), the rest by the frame of stores. -/
theorem cellsReadAsMostRecentlyWritten : Obligations.CellsReadAsMostRecentlyWritten := by
  unfold Obligations.CellsReadAsMostRecentlyWritten
  exact fun s writes x =>
    ⟨read_foldl_write State.load_store writes s x, State.foldl_store_frame writes s⟩

end Sys2Proof.Machine
end

