-- ==== Sys2Proof/Proofs/Alu.lean ====
section
/-! PROOFS. The two-operand register forms up to their effect, and MUL (`41_alu.md` R110). -/

namespace Sys2Proof.Machine

/-! ### Two register operands: each outcome of step 4a, and the effect -/

/-- An instruction that transfers no control needs the address of its sequential successor (`40_cycle.md` R95(2)). -/
theorem neededAddress_of_not_transfers {m : Mnemonic} {s : State} (h : transfers m s = false) :
    neededAddress m s = s.pc.toNat + m.nops + 1 := by
  have hcall : m ≠ .call := by rintro rfl; cases h
  simp [neededAddress, hcall, h]

section TwoRegisters

variable {m : Mnemonic} {a b : Byte} {s : State} {u : Fin 8 → Fin 8 → State}

/-- A bad operandA is reported, whatever operandB is. -/
theorem exec2_bad_operandA (hn : neededAddress m s ≤ 255) (ha : 8 ≤ a.toNat) :
    inRange m s (withReg a s fun ra => withReg b s fun rb => finish m (u ra rb)) =
      .next (s.raiseFault .registerIndex a) := by
  rw [inRange_ok hn, withReg_fault (Nat.not_lt.mpr ha)]

/-- A bad operandB is reported once operandA has passed. -/
theorem exec2_bad_operandB (hn : neededAddress m s ≤ 255) (ha : a.toNat < 8) (hb : 8 ≤ b.toNat) :
    inRange m s (withReg a s fun ra => withReg b s fun rb => finish m (u ra rb)) =
      .next (s.raiseFault .registerIndex b) := by
  rw [inRange_ok hn, withReg_ok ha, withReg_fault (Nat.not_lt.mpr hb)]

/-- Where no check fails, the effect is followed by the advance. -/
theorem exec2_ok (hn : neededAddress m s ≤ 255) (ha : a.toNat < 8) (hb : b.toNat < 8) :
    inRange m s (withReg a s fun ra => withReg b s fun rb => finish m (u ra rb)) =
      .next ((u ⟨a.toNat, ha⟩ ⟨b.toNat, hb⟩).advance m) := by
  rw [inRange_ok hn, withReg_ok ha, withReg_ok hb, finish]

end TwoRegisters

/-! ### MUL -/

/-- `exec` at MUL is MUL's meaning. -/
theorem exec_mul (a b : Byte) (s : State) : exec (.mul a b) s = execMul a b s := rfl

theorem neededAddress_mul (s : State) : neededAddress .mul s = s.pc.toNat + 3 :=
  neededAddress_of_not_transfers rfl

/-- The low byte of the product is the product modulo 256 (`41_alu.md` R110). -/
theorem mulByte_eq_mod (x y : Byte) : mulByte x y = BitVec.ofNat 8 (x.toNat * y.toNat % 256) :=
  BitVec.eq_of_toNat_eq (by simp [mulByte])

/-- The advance after a register write by MUL: PC plus 3 where nothing has jumped. -/
theorem advance_mul_setReg {s : State} (h : s.jumped = false) (i : Fin 8) (v : Byte) :
    (s.setReg i v).advance .mul = { s with regs := s.regs.set i v, pc := s.pc + 3 } :=
  State.advance_of_not_jumped _ .mul h

/-- Settles O28: MUL needs the addresses to PC + 3, so the range check passes exactly up to 252; after that, one lemma of
the two-operand forms per clause. -/
theorem mulKeepsTheLowByteOfTheProduct : Obligations.MulKeepsTheLowByteOfTheProduct := by
  unfold Obligations.MulKeepsTheLowByteOfTheProduct
  intro s a b hj
  have hneed := neededAddress_mul s
  refine ⟨rfl, fun hpc => ?range, fun hpc ha => ?operandA, fun hpc ha hb => ?operandB, fun hpc ha hb => ?effect⟩
  case range => exact inRange_fault (by omega)
  case operandA => exact exec2_bad_operandA (by omega) ha
  case operandB => exact exec2_bad_operandB (by omega) ha hb
  case effect =>
    rw [exec_mul, execMul, exec2_ok (by omega) ha hb, advance_mul_setReg hj, mulByte_eq_mod]
    rfl

end Sys2Proof.Machine
end

