-- ==== Sys2Proof/Proofs/LoadStore.lean ====
section
/-! PROOFS. The one-operand register forms up to their effect, and LDI, ST, PRN, PRA (`43_load_store_io.md` R130..R133). -/

namespace Sys2Proof.Machine

/-! ### One register operand: a bad operand, and the effect -/

section OneRegister

variable {m : Mnemonic} {a : Byte} {s : State} {u : Fin 8 → State}

/-- A bad operandA is reported. -/
theorem exec1_bad_operandA (hn : neededAddress m s ≤ 255) (ha : 8 ≤ a.toNat) :
    inRange m s (withReg a s fun ra => finish m (u ra)) = .next (s.raiseFault .registerIndex a) := by
  rw [inRange_ok hn, withReg_fault (Nat.not_lt.mpr ha)]

/-- Where no check fails, the effect is followed by the advance. -/
theorem exec1_ok (hn : neededAddress m s ≤ 255) (ha : a.toNat < 8) :
    inRange m s (withReg a s fun ra => finish m (u ra)) = .next ((u ⟨a.toNat, ha⟩).advance m) := by
  rw [inRange_ok hn, withReg_ok ha, finish]

end OneRegister

/-! ### LDI -/

/-- `exec` at LDI is LDI's meaning. -/
theorem exec_ldi (a v : Byte) (s : State) : exec (.ldi a v) s = execLdi a v s := rfl

theorem neededAddress_ldi (s : State) : neededAddress .ldi s = s.pc.toNat + 3 :=
  neededAddress_of_not_transfers rfl

/-- The advance after a register write by LDI: PC plus 3 where nothing has jumped. -/
theorem advance_ldi_setReg {s : State} (h : s.jumped = false) (i : Fin 8) (v : Byte) :
    (s.setReg i v).advance .ldi = { s with regs := s.regs.set i v, pc := s.pc + 3 } :=
  State.advance_of_not_jumped _ .ldi h

/-- Settles O31: LDI takes two operand bytes but checks operandA alone, so it is a one-register form whose range check
passes exactly up to 252. -/
theorem ldiLoadsTheImmediate : Obligations.LdiLoadsTheImmediate := by
  unfold Obligations.LdiLoadsTheImmediate
  intro s a v hj
  have hneed := neededAddress_ldi s
  refine ⟨rfl, fun hpc => ?range, fun hpc ha => ?operandA, fun hpc ha => ?effect⟩
  case range => exact inRange_fault (by omega)
  case operandA => exact exec1_bad_operandA (by omega) ha
  case effect => rw [exec_ldi, execLdi, exec1_ok (by omega) ha, advance_ldi_setReg hj]

/-! ### ST -/

theorem neededAddress_st (s : State) : neededAddress .st s = s.pc.toNat + 3 :=
  neededAddress_of_not_transfers rfl

/-- The advance after a store by ST: PC plus 3 where nothing has jumped. -/
theorem advance_st_store {s : State} (h : s.jumped = false) (x v : Byte) :
    (s.store x v).advance .st = { s with mem := ((s.store x v).advance .st).mem, pc := s.pc + 3 } := by
  rw [State.advance_mem]
  exact State.advance_of_not_jumped _ .st h

/-- Settles O32: the faults by the two-operand forms, the bytes read afterwards by the law of one store. -/
theorem stStoresOneByte : Obligations.StStoresOneByte := by
  unfold Obligations.StStoresOneByte
  intro s a b hj
  have hneed := neededAddress_st s
  refine ⟨rfl, fun hpc => ?range, fun hpc ha => ?operandA, fun hpc ha hb => ?operandB, fun hpc ha hb => ?effect⟩
  case range => exact inRange_fault (by omega)
  case operandA => exact exec2_bad_operandA (by omega) ha
  case operandB => exact exec2_bad_operandB (by omega) ha hb
  case effect =>
    refine ⟨_, exec2_ok (by omega) ha hb, advance_st_store hj _ _, ?stored, fun x hx => ?others⟩
    case stored => exact (State.advance_load _ _ _).trans (State.load_store_same _ _ _)
    case others => exact (State.advance_load _ _ _).trans (State.load_store_ne _ _ hx)

/-! ### PRN and PRA -/

section Output

variable {a : Byte} {s : State}

/-- The advance after an event appended by an instruction of one operand byte: PC plus 2 where nothing has jumped. -/
theorem advance_emit {m : Mnemonic} (hnops : m.nops = 1) (h : s.jumped = false) (e : OutEvent) :
    (s.emit e).advance m = { s with out := s.out ++ [e], pc := s.pc + 2 } := by
  rw [State.advance_of_not_jumped (s.emit e) m h, hnops]
  rfl

/-- What PRN and PRA share: an instruction of one register operand that transfers no control and appends one event has its
range check pass exactly up to 253, then its operand checked, then its event appended. -/
theorem exec_emit (i : Instr) (event : Byte → OutEvent)
    (hexec : exec i s =
      inRange i.mnemonic s (withReg a s fun ra => finish i.mnemonic (s.emit (event (s.reg ra)))))
    (htransfers : transfers i.mnemonic s = false) (hnops : i.mnemonic.nops = 1) (hj : s.jumped = false) :
    (253 < s.pc.toNat → RaisesAddressRange i s) ∧
    (s.pc.toNat ≤ 253 → 8 ≤ a.toNat → RaisesRegisterIndex i a s) ∧
    ∀ (_ : s.pc.toNat ≤ 253) (ha : a.toNat < 8),
      exec i s = .next { s with out := s.out ++ [event s.regs[a.toNat]], pc := s.pc + 2 } := by
  have hneed := neededAddress_of_not_transfers htransfers
  refine ⟨fun hpc => ?range, fun hpc ha => ?operandA, fun hpc ha => ?effect⟩
  case range => exact hexec.trans (inRange_fault (by omega))
  case operandA => exact hexec.trans (exec1_bad_operandA (by omega) ha)
  case effect =>
    rw [hexec, exec1_ok (by omega) ha, advance_emit hnops hj]
    rfl

end Output

/-- Settles O33: PRN is the output instruction whose event is `(DEC, v)`. -/
theorem prnAppendsADecimalEvent : Obligations.PrnAppendsADecimalEvent := by
  unfold Obligations.PrnAppendsADecimalEvent
  exact fun s a hj => ⟨rfl, exec_emit (.prn a) .dec rfl rfl rfl hj⟩

/-- Settles O34: PRA is the output instruction whose event is `(CHR, v)`. -/
theorem praAppendsACharacterEvent : Obligations.PraAppendsACharacterEvent := by
  unfold Obligations.PraAppendsACharacterEvent
  exact fun s a hj => ⟨rfl, exec_emit (.pra a) .chr rfl rfl rfl hj⟩

end Sys2Proof.Machine
end

