-- ==== Sys2Proof/Proofs/Control.lean ====
section
/-! PROOFS. Taken and untaken transfers by a register, and JMP, JEQ, JNE, RET (`44_control.md` R140..R142, R144). -/

namespace Sys2Proof.Machine

/-! ### A transfer: the address it needs, and its advance -/

/-- A transfer other than CALL needs no successor, only its own last operand byte (`40_cycle.md` R95(2)). -/
theorem neededAddress_of_transfers {m : Mnemonic} {s : State} (hcall : m ≠ .call) (h : transfers m s = true) :
    neededAddress m s = s.pc.toNat + m.nops := by
  simp [neededAddress, hcall, h]

/-- The advance after a jump keeps the target and clears the indicator again. -/
theorem State.advance_jumpTo {s : State} (h : s.jumped = false) (m : Mnemonic) (target : Byte) :
    (s.jumpTo target).advance m = { s with pc := target } := by
  rw [State.advance_of_jumped _ m (State.jumpTo_jumped s target), ← h]
  rfl

section Jump

variable {a : Byte} {s : State}

/-- What JMP, a taken JEQ and a taken JNE share: the range check passes exactly up to 254, then the operand is checked,
then PC becomes the register. -/
theorem exec_jump (i : Instr)
    (hexec : exec i s =
      inRange i.mnemonic s (withReg a s fun ra => finish i.mnemonic (s.jumpTo (s.reg ra))))
    (hneed : neededAddress i.mnemonic s = s.pc.toNat + 1) (hj : s.jumped = false) :
    (s.pc.toNat = 255 → RaisesAddressRange i s) ∧
    (s.pc.toNat ≤ 254 → 8 ≤ a.toNat → RaisesRegisterIndex i a s) ∧
    ∀ (_ : s.pc.toNat ≤ 254) (ha : a.toNat < 8), exec i s = .next { s with pc := s.regs[a.toNat] } := by
  refine ⟨fun hpc => ?range, fun hpc ha => ?operandA, fun hpc ha => ?effect⟩
  case range => exact hexec.trans (inRange_fault (by omega))
  case operandA => exact hexec.trans (exec1_bad_operandA (by omega) ha)
  case effect =>
    rw [hexec, exec1_ok (by omega) ha, State.advance_jumpTo hj]
    rfl

/-- What an untaken JEQ and an untaken JNE share: the range check passes exactly up to 253, then the operand is checked
all the same, then PC advances by 2 and nothing else happens. -/
theorem exec_untaken (i : Instr)
    (hexec : exec i s = inRange i.mnemonic s (withReg a s fun _ => finish i.mnemonic s))
    (htransfers : transfers i.mnemonic s = false) (hnops : i.mnemonic.nops = 1) (hj : s.jumped = false) :
    (253 < s.pc.toNat → RaisesAddressRange i s) ∧
    (s.pc.toNat ≤ 253 → 8 ≤ a.toNat → RaisesRegisterIndex i a s) ∧
    (s.pc.toNat ≤ 253 → a.toNat < 8 → exec i s = .next { s with pc := s.pc + 2 }) := by
  have hneed := neededAddress_of_not_transfers htransfers
  refine ⟨fun hpc => ?range, fun hpc ha => ?operandA, fun hpc ha => ?effect⟩
  case range => exact hexec.trans (inRange_fault (by omega))
  case operandA => exact hexec.trans (exec1_bad_operandA (by omega) ha)
  case effect =>
    rw [hexec, exec1_ok (by omega) ha, State.advance_of_not_jumped _ _ hj, hnops]
    rfl

end Jump

/-! ### JMP -/

/-- Settles O37: JMP is the jump that is always taken. -/
theorem jmpLoadsPc : Obligations.JmpLoadsPc := by
  unfold Obligations.JmpLoadsPc
  intro s a hj
  have hneed : neededAddress .jmp s = s.pc.toNat + 1 := neededAddress_of_transfers nofun rfl
  exact ⟨rfl, exec_jump (.jmp a) rfl hneed hj⟩

/-! ### JEQ and JNE, by bit 0 of FL -/

section Conditional

variable {a : Byte} {s : State}

theorem exec_jeq_of_equal (h : s.equalFlag = true) :
    exec (.jeq a) s = inRange .jeq s (withReg a s fun ra => finish .jeq (s.jumpTo (s.reg ra))) := by
  simp [exec, execJeq, h]

theorem exec_jeq_of_not_equal (h : s.equalFlag = false) :
    exec (.jeq a) s = inRange .jeq s (withReg a s fun _ => finish .jeq s) := by
  simp [exec, execJeq, h]

theorem exec_jne_of_equal (h : s.equalFlag = true) :
    exec (.jne a) s = inRange .jne s (withReg a s fun _ => finish .jne s) := by
  simp [exec, execJne, h]

theorem exec_jne_of_not_equal (h : s.equalFlag = false) :
    exec (.jne a) s = inRange .jne s (withReg a s fun ra => finish .jne (s.jumpTo (s.reg ra))) := by
  simp [exec, execJne, h]

end Conditional

/-- Settles O38: with bit 0 of FL set JEQ is a jump, with it clear an untaken one. -/
theorem jeqJumpsIfEqual : Obligations.JeqJumpsIfEqual := by
  unfold Obligations.JeqJumpsIfEqual
  refine fun s a hj => ⟨rfl, fun hfl => ?taken, fun hfl => ?untaken⟩
  case taken =>
    have hneed : neededAddress .jeq s = s.pc.toNat + 1 := neededAddress_of_transfers nofun hfl
    exact exec_jump (.jeq a) (exec_jeq_of_equal hfl) hneed hj
  case untaken => exact exec_untaken (.jeq a) (exec_jeq_of_not_equal hfl) hfl rfl hj

/-- Settles O39: with bit 0 of FL clear JNE is a jump, with it set an untaken one. -/
theorem jneJumpsIfNotEqual : Obligations.JneJumpsIfNotEqual := by
  unfold Obligations.JneJumpsIfNotEqual
  refine fun s a hj => ⟨rfl, fun hfl => ?taken, fun hfl => ?untaken⟩
  case taken =>
    have htransfers : transfers .jne s = true := congrArg not hfl
    have hneed : neededAddress .jne s = s.pc.toNat + 1 := neededAddress_of_transfers nofun htransfers
    exact exec_jump (.jne a) (exec_jne_of_not_equal hfl) hneed hj
  case untaken => exact exec_untaken (.jne a) (exec_jne_of_equal hfl) (congrArg not hfl) rfl hj

/-! ### RET -/

/-- RET needs its own address alone, so its range check passes everywhere. -/
theorem neededAddress_ret (s : State) : neededAddress .ret s = s.pc.toNat :=
  neededAddress_of_transfers nofun rfl

/-- `exec` at RET is RET's meaning. -/
theorem exec_ret (s : State) : exec .ret s = execRet s := rfl

/-- Settles O41: the range check never fails, and the pop moves SP alone before the jump. -/
theorem retPopsPc : Obligations.RetPopsPc := by
  unfold Obligations.RetPopsPc
  refine fun s hj => ⟨rfl, ?_⟩
  have hpopped : (pop s).2.jumped = false := hj
  have hneed : neededAddress .ret s ≤ 255 := by
    have := s.pc.isLt
    rw [neededAddress_ret]
    omega
  rw [exec_ret, execRet, inRange_ok hneed, finish, State.advance_jumpTo hpopped]
  rfl

end Sys2Proof.Machine
end

