-- ==== Sys2Proof/Proofs/System.lean ====
section
/-! PROOFS. The return from the interrupt as one update of the state, and IRET (`42_stack.md` R125, `45_system.md` R151). -/

namespace Sys2Proof.Machine

/-! ### `StateRestore()` in closed form -/

/-- The register file after `StateRestore()`: R6 from the cell at SP, down to R0 six cells above it, and SP plus 9. -/
def restoredRegs (s : State) : Vector Byte 8 :=
  #v[s.load (s.reg 7 + 6), s.load (s.reg 7 + 5), s.load (s.reg 7 + 4), s.load (s.reg 7 + 3),
     s.load (s.reg 7 + 2), s.load (s.reg 7 + 1), s.load (s.reg 7), s.reg 7 + 9]

/-- Register by register, the pops leave the file as listed. -/
theorem stateRestore_regs (s : State) : (stateRestore s).regs = restoredRegs s := by
  refine State.regs_ext (t := { s with regs := restoredRegs s }) fun k => ?_
  rw [stateRestore_reg]
  match k with
  | 0 | 1 | 2 | 3 | 4 | 5 | 7 => rfl
  | 6 => simp [State.reg, restoredRegs]

/-- The return is a jump to the ninth byte, from a state whose registers and FL alone have changed. -/
theorem stateRestore_eq_jumpTo (s : State) :
    stateRestore s =
      { s with regs := restoredRegs s, fl := s.load (s.reg 7 + 7) }.jumpTo (s.load (s.reg 7 + 8)) := by
  have hregs := stateRestore_regs s
  obtain ⟨hfl, hpc⟩ := stateRestore_fl_pc s
  obtain ⟨hjumped, hrun, hfcause, hfinfo, hmem, hout, hcycle, hirqSource, hstopped, hopc⟩ := stateRestore_frame s
  simp only [State.jumpTo, ← hregs, ← hfl, ← hpc, ← hjumped, ← hrun, ← hfcause, ← hfinfo, ← hmem, ← hout, ← hcycle,
    ← hirqSource, ← hstopped, ← hopc]

/-! ### IRET -/

/-- IRET needs its own address alone (`40_cycle.md` R95(2)). -/
theorem neededAddress_iret (s : State) : neededAddress .iret s = s.pc.toNat :=
  neededAddress_of_transfers nofun rfl

/-- `exec` at IRET is IRET's meaning. -/
theorem exec_iret (s : State) : exec .iret s = execIret s := rfl

/-- Settles O43: the range check passes at every address, and the advance keeps the PC that the return jumped to. -/
theorem iretPopsNineBytes : Obligations.IretPopsNineBytes := by
  unfold Obligations.IretPopsNineBytes
  refine fun s hj => ⟨rfl, ?_⟩
  have hneed : neededAddress .iret s ≤ 255 := by
    have := s.pc.isLt
    rw [neededAddress_iret]
    omega
  have hrestored : { s with regs := restoredRegs s, fl := s.load (s.reg 7 + 7) }.jumped = false := hj
  rw [exec_iret, execIret, inRange_ok hneed, finish, stateRestore_eq_jumpTo, State.advance_jumpTo hrestored]
  rfl

end Sys2Proof.Machine
end

