-- ==== Sys2Proof/Proofs/Exceptions.lean ====
section
/-! PROOFS. The interrupt: when a tick takes it, what its entry saves, and the return that undoes the entry
(`60_exceptions.md` R172, R173, R175). -/

namespace Sys2Proof.Machine

/-! ### The tick at an interrupt -/

theorem tick_of_interruptDue {s : State} (hrun : s.run = .running) (hdue : InterruptDue s) :
    tick s = .next (enterInterrupt s) := by
  have htaken := (interruptTaken_iff s).mpr hdue
  simp [tick, hrun, htaken]

theorem tick_of_not_interruptDue {s : State} (hrun : s.run = .running) (hdue : ¬ InterruptDue s) :
    tick s = fetchAndExecute s := by
  have htaken := (interruptTaken_eq_false_iff s).mpr hdue
  simp [tick, hrun, htaken]

/-- Settles O22: the model's check is the condition, and a running tick branches on it. -/
theorem theInterruptIsTakenExactlyWhenDue : Obligations.TheInterruptIsTakenExactlyWhenDue := by
  unfold Obligations.TheInterruptIsTakenExactlyWhenDue
  exact fun s hrun => ⟨tick_of_interruptDue hrun, tick_of_not_interruptDue hrun⟩

/-! ### The entry: its nine cells and its frame (`42_stack.md` R124) -/

/-- Farther than nine cells below the old SP, and at the old SP itself, `StateSave()` writes nothing. -/
theorem frameByte_outside (s : State) {d : Byte} (old : Byte) (h : 9 < d.toNat ∨ d = 0) :
    frameByte s d old = old := by
  have hne : ∀ n : Byte, 1 ≤ n.toNat → n.toNat ≤ 9 → d ≠ n := by
    rintro n hlow hhigh rfl
    rcases h with h | rfl
    · omega
    · exact absurd hlow (by decide)
  simp [frameByte, hne]

/-- The byte of register `k` lies `k + 3` below the old SP. -/
theorem frameByte_reg (s : State) {k : Fin 8} (h7 : k ≠ 7) (old : Byte) :
    frameByte s (BitVec.ofNat 8 (k.val + 3)) old = s.reg k := by
  match k, h7 with
  | 0, _ | 1, _ | 2, _ | 3, _ | 4, _ | 5, _ | 6, _ => rfl
  | 7, h7 => exact absurd rfl h7

/-- The cell `d` below the SP of before the entry. -/
theorem enterInterrupt_load_below (s : State) (d : Byte) :
    (enterInterrupt s).load (s.reg 7 - d) = frameByte (s.setReg isReg 0) d (s.load (s.reg 7 - d)) := by
  rw [enterInterrupt_load, (eq_sub_iff (s.reg 7 - d) (s.reg 7) d).mp rfl]

theorem enterInterrupt_load_outside (s : State) {x : Byte} (h : 9 < (s.reg 7 - x).toNat ∨ x = s.reg 7) :
    (enterInterrupt s).load x = s.load x := by
  rw [enterInterrupt_load]
  exact frameByte_outside _ _ (h.imp_right fun hx => by simp [hx])

/-- Each register but SP is saved as the entry leaves it: the entry has cleared R6 before the save, and changes no other
register that it saves. -/
theorem enterInterrupt_load_saved (s : State) {k : Fin 8} (h7 : k ≠ 7) :
    (enterInterrupt s).load (s.reg 7 - BitVec.ofNat 8 (k.val + 3)) = (enterInterrupt s).reg k := by
  rw [enterInterrupt_load_below, frameByte_reg _ h7, enterInterrupt_reg, if_neg h7, State.reg_setReg]
  exact if_congr eq_comm rfl rfl

theorem enterInterrupt_reg_kept (s : State) {k : Fin 8} (h6 : k ≠ 6) (h7 : k ≠ 7) :
    (enterInterrupt s).reg k = s.reg k := by
  rw [enterInterrupt_reg, if_neg h7, if_neg h6]

/-- An entry replaces registers, memory and PC alone. -/
theorem enterInterrupt_eq_update (s : State) :
    enterInterrupt s =
      { s with regs := (enterInterrupt s).regs, mem := (enterInterrupt s).mem, pc := (enterInterrupt s).pc } := rfl

/-- Settles O23: registers and PC by their laws, the nine cells by the byte the frame holds at each depth. -/
theorem interruptEntrySavesNineBytesAndLoadsTheVector :
    Obligations.InterruptEntrySavesNineBytesAndLoadsTheVector := by
  unfold Obligations.InterruptEntrySavesNineBytesAndLoadsTheVector
  intro s hrun hdue
  have hreg6 : (enterInterrupt s).reg 6 = 0 := enterInterrupt_reg s 6
  have hsaved (k : Fin 8) (h6 : k ≠ 6) (h7 : k ≠ 7) :
      (enterInterrupt s).load (s.reg 7 - BitVec.ofNat 8 (k.val + 3)) = s.reg k :=
    (enterInterrupt_load_saved s h7).trans (enterInterrupt_reg_kept s h6 h7)
  exact ⟨enterInterrupt s, tick_of_interruptDue hrun hdue, hreg6, enterInterrupt_reg s 7,
    fun _ => enterInterrupt_reg_kept s, enterInterrupt_load_below s 1, enterInterrupt_load_below s 2,
    hsaved 0 nofun nofun, hsaved 1 nofun nofun, hsaved 2 nofun nofun, hsaved 3 nofun nofun, hsaved 4 nofun nofun,
    hsaved 5 nofun nofun, (enterInterrupt_load_saved s (k := 6) nofun).trans hreg6,
    fun _ => enterInterrupt_load_outside s, enterInterrupt_pc s, enterInterrupt_eq_update s⟩

/-! ### The return -/

/-- The cell `k` above the SP of after the entry is the one `9 - k` below the SP of before. -/
theorem enterInterrupt_cell (s : State) {k : Nat} (h : k ≤ 9) :
    (enterInterrupt s).reg 7 + BitVec.ofNat 8 k = s.reg 7 - BitVec.ofNat 8 (9 - k) := by
  rw [enterInterrupt_reg, if_pos rfl]
  bv_omega

/-- The premise of `60_exceptions.md` R175: `u` has the SP that an entry from `s` leaves, and its nine cells. -/
def KeepsEntryFrame (s u : State) : Prop :=
  u.reg 7 = (enterInterrupt s).reg 7 ∧
    ∀ k : Nat, k < 9 → u.load ((enterInterrupt s).reg 7 + BitVec.ofNat 8 k) =
      (enterInterrupt s).load ((enterInterrupt s).reg 7 + BitVec.ofNat 8 k)

section Return

variable {s u : State}

/-- What a pop finds in the frame, as the cell below the SP of before the entry. -/
theorem KeepsEntryFrame.load (h : KeepsEntryFrame s u) {k : Nat} (hk : k < 9) :
    u.load (u.reg 7 + BitVec.ofNat 8 k) = (enterInterrupt s).load (s.reg 7 - BitVec.ofNat 8 (9 - k)) := by
  obtain ⟨hsp, hcells⟩ := h
  rw [hsp, hcells k hk, enterInterrupt_cell s hk.le]

/-- R0..R6 come back as the entry left them. -/
theorem KeepsEntryFrame.stateRestore_saved (h : KeepsEntryFrame s u) {k : Fin 8} (h7 : k ≠ 7) :
    (stateRestore u).reg k = (enterInterrupt s).reg k := by
  have hdepth : 9 - (6 - k.val) = k.val + 3 := by omega
  rw [stateRestore_reg, if_neg h7, h.load (by omega), hdepth, enterInterrupt_load_saved s h7]

/-- SP comes back as it was before the entry. -/
theorem KeepsEntryFrame.stateRestore_sp (h : KeepsEntryFrame s u) : (stateRestore u).reg 7 = s.reg 7 := by
  obtain ⟨hsp, _⟩ := h
  rw [stateRestore_reg, if_pos rfl, hsp, enterInterrupt_reg, if_pos rfl, BitVec.sub_add_cancel]

theorem KeepsEntryFrame.stateRestore_fl (h : KeepsEntryFrame s u) : (stateRestore u).fl = s.fl :=
  (stateRestore_fl_pc u).1.trans <| (h.load (k := 7) (by decide)).trans (enterInterrupt_load_below s 2)

theorem KeepsEntryFrame.stateRestore_pc (h : KeepsEntryFrame s u) : (stateRestore u).pc = s.pc :=
  (stateRestore_fl_pc u).2.trans <| (h.load (k := 8) (by decide)).trans (enterInterrupt_load_below s 1)

end Return

/-- IRET raises no fault at any address: it answers the restored state, advanced. -/
theorem exec_iret_eq_next (s : State) : exec .iret s = .next ((stateRestore s).advance .iret) := by
  have hneed : neededAddress .iret s ≤ 255 := by
    have := s.pc.isLt
    rw [neededAddress_iret]
    omega
  rw [exec_iret, execIret, inRange_ok hneed, finish]

/-- The return marks the jump, so the advance keeps its PC. -/
theorem advance_stateRestore_pc (s : State) (m : Mnemonic) :
    ((stateRestore s).advance m).pc = (stateRestore s).pc := by
  obtain ⟨hjumped, _⟩ := stateRestore_frame s
  rw [State.advance_of_jumped _ m hjumped]

/-- Settles O24: each pop finds the byte that the entry pushed for its register, and R6 was pushed as 0. -/
theorem iretUndoesAnInterruptEntry : Obligations.IretUndoesAnInterruptEntry := by
  unfold Obligations.IretUndoesAnInterruptEntry
  intro s t u hrun hdue htick hsp hcells
  obtain rfl : enterInterrupt s = t := by simpa [tick_of_interruptDue hrun hdue] using htick
  have hframe : KeepsEntryFrame s u := ⟨hsp, hcells⟩
  refine ⟨_, exec_iret_eq_next u, fun k h6 => ?kept, ?is, ?fl, ?pc⟩
  case kept =>
    rw [State.advance_reg]
    by_cases h7 : k = 7
    · subst h7
      exact hframe.stateRestore_sp
    · exact (hframe.stateRestore_saved h7).trans (enterInterrupt_reg_kept s h6 h7)
  case is =>
    rw [State.advance_reg]
    exact (hframe.stateRestore_saved (k := 6) nofun).trans (enterInterrupt_reg s 6)
  case fl => exact (State.advance_fl _ _).trans hframe.stateRestore_fl
  case pc => exact (advance_stateRestore_pc u _).trans hframe.stateRestore_pc

end Sys2Proof.Machine
end

section
/-! PROOFS. The frame of an instruction, and the invariant of a tick boundary under steps and transactions
(`10_state.md` R30, R31, R36). -/

namespace Sys2Proof.Machine

/-! ### What an instruction that raises no fault may change -/

/-- The registers an instruction may write. -/
def WritesReg (i : Instr) (k : Fin 8) : Prop :=
  match i with
  | .ldi a _ | .add a _ | .mul a _ => k.val = a.toNat
  | .pop a => k = 7 ∨ k.val = a.toNat
  | .push _ | .call _ | .ret => k = 7
  | .iret => True
  | .prn _ | .pra _ | .hlt | .st _ _ | .jmp _ | .cmp _ _ | .jeq _ | .jne _ => False

/-- The cell an instruction may write, computed in the state before it. -/
def StoresAt (i : Instr) (s : State) (x : Byte) : Prop :=
  match i with
  | .st a _ => ∃ ha : a.toNat < 8, x = s.reg ⟨a.toNat, ha⟩
  | .push _ | .call _ => x = s.reg 7 - 1
  | .ldi _ _ | .prn _ | .pra _ | .hlt | .pop _ | .ret | .add _ _ | .iret | .jmp _ | .cmp _ _ | .jeq _ | .jne _
  | .mul _ _ => False

/-- The frame of an instruction: each part of `t` is that of `s`, or `i` is one of the instructions that write it. -/
structure Frame (i : Instr) (s t : State) : Prop where
  platform : SamePlatform s t
  record : t.fcause = s.fcause ∧ t.finfo = s.finfo
  run : t.run = s.run ∨ i = .hlt ∧ t.run = .halted
  reg : ∀ k, t.reg k = s.reg k ∨ WritesReg i k
  fl : t.fl = s.fl ∨ i.mnemonic = .cmp ∨ i.mnemonic = .iret
  out : t.out = s.out ∨ (i.mnemonic = .prn ∨ i.mnemonic = .pra) ∧ ∃ e, t.out = s.out ++ [e]
  mem : t.mem = s.mem ∨ ∃ x v, StoresAt i s x ∧ t.mem = s.mem.write x v

namespace Frame

variable {i : Instr} {s u : State}

theorem refl : Frame i s s :=
  ⟨⟨rfl, rfl, rfl, rfl⟩, ⟨rfl, rfl⟩, .inl rfl, fun _ => .inl rfl, .inl rfl, .inl rfl, .inl rfl⟩

theorem jumpTo {target : Byte} (h : Frame i s u) : Frame i s (u.jumpTo target) := { h with }

theorem advance (h : Frame i s u) (m : Mnemonic) : Frame i s (u.advance m) := by
  cases hj : u.jumped with
  | true => rw [State.advance_of_jumped u m hj]; exact { h with }
  | false => rw [State.advance_of_not_jumped u m hj]; exact { h with }

theorem setReg {r : Fin 8} {v : Byte} (h : Frame i s u) (hr : WritesReg i r) : Frame i s (u.setReg r v) where
  __ := h
  reg k := by
    by_cases hk : r = k
    · exact .inr (hk ▸ hr)
    · rw [State.reg_setReg_ne _ _ _ _ hk]
      exact h.reg k

theorem store {x v : Byte} (h : Frame i s u) (hmem : u.mem = s.mem) (hx : StoresAt i s x) :
    Frame i s (u.store x v) where
  __ := h
  mem := .inr ⟨x, v, hx, by rw [State.store_mem, hmem]⟩

theorem push {v : Byte} (h7 : WritesReg i 7) (hx : StoresAt i s (s.reg 7 - 1)) : Frame i s (push v s) := by
  rw [push_eq]
  exact (refl.setReg h7).store rfl hx

end Frame

/-- Every effect keeps the frame. -/
theorem ExecEffect.frame {i : Instr} {s u : State} (h : ExecEffect i s u) : Frame i s u := by
  cases i with
  | ldi a v =>
    obtain ⟨_, ha, rfl⟩ := h
    exact Frame.refl.setReg ha
  | add a b | mul a b =>
    obtain ⟨_, _, ha, _, rfl⟩ := h
    exact Frame.refl.setReg ha
  | prn a =>
    obtain ⟨_, _, rfl⟩ := h
    exact { Frame.refl with out := .inr ⟨.inl rfl, _, rfl⟩ }
  | pra a =>
    obtain ⟨_, _, rfl⟩ := h
    exact { Frame.refl with out := .inr ⟨.inr rfl, _, rfl⟩ }
  | hlt =>
    obtain rfl : u = s.halt := h
    exact { Frame.refl with run := .inr ⟨rfl, rfl⟩ }
  | push a =>
    obtain ⟨_, _, rfl⟩ := h
    exact Frame.push rfl rfl
  | call a =>
    obtain ⟨_, _, rfl⟩ := h
    exact Frame.jumpTo (.push rfl rfl)
  | pop a =>
    obtain ⟨_, ha, rfl⟩ := h
    exact Frame.setReg (.setReg .refl (.inl rfl)) (.inr ha)
  | ret =>
    obtain rfl : u = (pop s).2.jumpTo (pop s).1 := h
    exact Frame.jumpTo (.setReg .refl rfl)
  | iret =>
    obtain rfl : u = stateRestore s := h
    obtain ⟨_, hrun, hfcause, hfinfo, hmem, hout, hplatform⟩ := stateRestore_frame s
    exact ⟨hplatform, ⟨hfcause, hfinfo⟩, .inl hrun, fun _ => .inr trivial, .inr (.inr rfl), .inl hout, .inl hmem⟩
  | st a b =>
    obtain ⟨⟨_, hlt⟩, _, rfl, _, rfl⟩ := h
    exact Frame.refl.store rfl ⟨hlt, rfl⟩
  | cmp a b =>
    obtain ⟨_, _, _, _, rfl⟩ := h
    exact { Frame.refl with fl := .inr (.inl rfl) }
  | jmp a =>
    obtain ⟨_, _, rfl⟩ := h
    exact Frame.refl.jumpTo
  | jeq a =>
    obtain ⟨_, _, rfl⟩ := h
    split
    · exact Frame.refl.jumpTo
    · exact Frame.refl
  | jne a =>
    obtain ⟨_, _, rfl⟩ := h
    split
    · exact Frame.refl
    · exact Frame.refl.jumpTo

/-- What an instruction does: a fault, or something within its frame that leaves the jump indicator clear. -/
theorem exec_frame {i : Instr} {s t : State} (h : exec i s = .next t) :
    ExecFault i.mnemonic i.registerBytes s t ∨ Frame i s t ∧ t.jumped = false := by
  rcases exec_next h with hfault | ⟨_, u, heffect, rfl⟩
  · exact .inl hfault
  · exact .inr ⟨heffect.frame.advance _, State.advance_jumped u _⟩

/-- Each fault of an instruction names a cause and changes RUN, FCAUSE and FINFO alone. -/
theorem ExecFault.eq_afterFault {m : Mnemonic} {registers : List Byte} {s t : State} (h : ExecFault m registers s t) :
    ∃ cause info, cause ≠ .none ∧ t = s.afterFault cause info := by
  rcases h with ⟨_, ht⟩ | ⟨_, bad, _, ht⟩
  · exact ⟨.addressRange, _, nofun, ht⟩
  · exact ⟨.registerIndex, bad, nofun, ht⟩

/-! ### The invariant of a tick boundary -/

section Invariant

variable {s t : State}

theorem State.Inv.afterFault (h : s.Inv) {cause : FaultCause} (hcause : cause ≠ .none) (info : Byte) :
    (s.afterFault cause info).Inv := by
  obtain ⟨hmem, hjumped, _, _, hopc⟩ := h
  exact ⟨hmem, hjumped, fun hrun => absurd rfl hrun, fun _ => hcause, hopc⟩

theorem State.Inv.boundary (h : s.Inv) : (boundary s).Inv := by
  rw [boundary_eq]
  exact h

theorem State.Inv.enterInterrupt (h : s.Inv) : (enterInterrupt s).Inv := by
  obtain ⟨hmem, hrest⟩ := h
  exact ⟨enterInterrupt_wf hmem, hrest⟩

/-- Memory stays canonical within an instruction's frame: it is left alone or written once. -/
theorem Frame.mem_wf {i : Instr} (h : Frame i s t) (hmem : s.mem.wf) : t.mem.wf := by
  rcases h.mem with ht | ⟨x, v, _, ht⟩
  · exact ht ▸ hmem
  · exact ht ▸ Memory.write_wf x v hmem

/-- Only a fault stops a running machine as FAULTED. -/
theorem Frame.run_ne_faulted {i : Instr} (h : Frame i s t) (hrun : s.run = .running) : t.run ≠ .faulted := by
  rcases h.run with ht | ⟨_, ht⟩ <;> simp [ht, hrun]

theorem State.Inv.exec {i : Instr} (h : s.Inv) (hrun : s.run = .running) (ht : exec i s = .next t) : t.Inv := by
  rcases exec_frame ht with hfault | ⟨hframe, hjumped⟩
  · obtain ⟨cause, info, hcause, rfl⟩ := hfault.eq_afterFault
    exact h.afterFault hcause info
  · obtain ⟨hmem, _, hclear, _, hopc⟩ := h
    have ⟨_, _, _, hopc'⟩ := hframe.platform
    have ⟨hfcause, hfinfo⟩ := hframe.record
    refine ⟨hframe.mem_wf hmem, hjumped, fun _ => ?record, fun hf => absurd hf (hframe.run_ne_faulted hrun), ?opc⟩
    case record => rw [hfcause, hfinfo]; exact hclear (by simp [hrun])
    case opc => rw [hopc']; exact hopc

theorem State.Inv.tickEffect (h : s.Inv) (hrun : s.run = .running) (ht : TickEffect s t) : t.Inv := by
  rcases ht with ⟨_, rfl⟩ | ⟨_, ⟨i, _, hexec⟩ | ⟨ir, _, rfl⟩ | ⟨ir, _, rfl⟩⟩
  · exact h.enterInterrupt
  · exact h.exec hrun hexec
  · exact h.afterFault (cause := .unrecognizedOpcode) nofun ir
  · exact h.afterFault (cause := .addressRange) nofun ir

theorem State.Inv.tick (h : s.Inv) (ht : tick s = .next t) : t.Inv := by
  rcases tick_next ht with ⟨_, rfl⟩ | ⟨hrun, heffect⟩
  · exact h
  · exact h.tickEffect hrun heffect

/-- Settles O3: the boundary keeps the invariant, and so does each thing that a tick of a running machine can do. -/
theorem everyStepKeepsTheBoundaryInvariant : Obligations.EveryStepKeepsTheBoundaryInvariant := by
  unfold Obligations.EveryStepKeepsTheBoundaryInvariant
  intro s t h ht
  rcases step_next ht with ⟨_, rfl⟩ | ⟨_, hrun, heffect⟩
  · exact h
  · exact h.boundary.tickEffect ((boundary_run s).trans hrun) heffect

end Invariant

/-! ### Transactions -/

section Transactions

variable {s t : State}

theorem loadByte_next {addr : Nat} {v : Byte} (h : loadByte addr v s = .next t) :
    t = s.store (BitVec.ofNat 8 addr) v := by
  unfold loadByte at h
  split at h
  · cases h
  · split at h
    · exact (Host.Outcome.next.inj h).symm
    · cases h

/-- A TICK is ignored once the scheduler has stopped, else it is counted and performed. -/
theorem transact_tick_next (h : transact .tick s = .next t) :
    s.live = false ∧ t = s ∨ s.live = true ∧ tick (countTick s) = .next t := by
  simp only [transact] at h
  split at h
  · exact .inr ⟨‹_›, h⟩
  · exact .inl ⟨Bool.eq_false_of_not_eq_true ‹_›, (Host.Outcome.next.inj h).symm⟩

/-- An IRQ is not issued once the scheduler has stopped. -/
theorem transact_irq_next (h : transact .irq s = .next t) : t = s ∨ t = irq s := by
  obtain rfl := Host.Outcome.next.inj h
  split
  · exact .inl rfl
  · exact .inr rfl

theorem transactAll_cons {x : Transaction} {xs : List Transaction} (h : transactAll (x :: xs) s = .next t) :
    ∃ s', transact x s = .next s' ∧ transactAll xs s' = .next t := by
  unfold transactAll at h
  split at h
  · exact ⟨_, ‹_›, h⟩
  · cases h
  · cases h

/-- What each transaction of a sequence keeps, the sequence keeps. -/
theorem transactAll_keeps {P : State → Prop} {xs : List Transaction}
    (hP : ∀ x ∈ xs, ∀ s t, P s → transact x s = .next t → P t) (hs : P s) (h : transactAll xs s = .next t) : P t := by
  induction xs generalizing s with
  | nil => exact Host.Outcome.next.inj h ▸ hs
  | cons x xs ih =>
    obtain ⟨s', hx, hxs⟩ := transactAll_cons h
    exact ih (fun y hy => hP y (.tail x hy)) (hP x (.head xs) s s' hs hx) hxs

theorem State.Inv.transact (h : s.Inv) (x : Transaction) (ht : transact x s = .next t) : t.Inv := by
  cases x with
  | reset =>
    obtain ⟨_, _, _, _, hopc⟩ := h
    obtain rfl := Host.Outcome.next.inj ht
    exact ⟨Memory.nil_wf, rfl, fun _ => ⟨rfl, rfl⟩, nofun, hopc⟩
  | load addr v =>
    obtain ⟨hmem, hrest⟩ := h
    obtain rfl := loadByte_next ht
    exact ⟨Memory.write_wf _ v hmem, hrest⟩
  | tick =>
    rcases transact_tick_next ht with ⟨_, rfl⟩ | ⟨_, ht⟩
    · exact h
    · exact State.Inv.tick (s := countTick s) h ht
  | irq =>
    rcases transact_irq_next ht with rfl | rfl
    · exact h
    · exact h
  | stop =>
    obtain rfl := Host.Outcome.next.inj ht
    exact h

/-- Settles O4: each transaction keeps the invariant. -/
theorem everyTransactionSequenceKeepsTheInvariant : Obligations.EveryTransactionSequenceKeepsTheInvariant := by
  unfold Obligations.EveryTransactionSequenceKeepsTheInvariant
  exact fun _ _ _ => transactAll_keeps fun x _ _ _ h => h.transact x

end Transactions
end Sys2Proof.Machine
end

section
/-! PROOFS. Decoding and encoding are inverse, what decoding answers, and the fetch at PC (`30_encoding.md` R71, R80,
`40_cycle.md` R93). -/

namespace Sys2Proof

/-! ### What decoding answers -/

section Answers

variable {opc : OpcodeMap} {b0 : Byte} {rest left : List Byte} {i : Instr} {m : Mnemonic}

theorem mnemonicOf_eq_some_iff (h : opc.wf) : mnemonicOf opc b0 = some m ↔ opc.byte m = b0 :=
  ⟨opcode_of_mnemonicOf, fun e => e ▸ mnemonicOf_opcode h m⟩

theorem decodeWith_of_none (h : mnemonicOf opc b0 = none) : decodeWith opc b0 rest = .error (.unrecognized b0) := by
  simp [decodeWith, h]

theorem decodeWith_of_short (hm : mnemonicOf opc b0 = some m) (h : decodeOperands m rest = none) :
    decodeWith opc b0 rest = .error (.operandsMissing b0) := by
  simp [decodeWith, hm, h]

theorem decodeWith_of_some {r : Instr × List Byte} (hm : mnemonicOf opc b0 = some m)
    (h : decodeOperands m rest = some r) : decodeWith opc b0 rest = .ok r := by
  simp [decodeWith, hm, h]

/-- The three answers of decoding, each with what it was decided by. -/
theorem decodeWith_cases (opc : OpcodeMap) (b0 : Byte) (rest : List Byte) :
    (mnemonicOf opc b0 = none ∧ decodeWith opc b0 rest = .error (.unrecognized b0)) ∨
      ∃ m, mnemonicOf opc b0 = some m ∧
        ((decodeOperands m rest = none ∧ decodeWith opc b0 rest = .error (.operandsMissing b0)) ∨
          ∃ r, decodeOperands m rest = some r ∧ decodeWith opc b0 rest = .ok r) := by
  cases hm : mnemonicOf opc b0 with
  | none => exact .inl ⟨rfl, decodeWith_of_none hm⟩
  | some m =>
    refine .inr ⟨m, rfl, ?_⟩
    cases hr : decodeOperands m rest with
    | none => exact .inl ⟨rfl, decodeWith_of_short hm hr⟩
    | some r => exact .inr ⟨r, rfl, decodeWith_of_some hm hr⟩

/-- An instruction is answered only for its mnemonic's byte and its operands. -/
theorem decodeWith_ok {r : Instr × List Byte} (h : decodeWith opc b0 rest = .ok r) :
    ∃ m, mnemonicOf opc b0 = some m ∧ decodeOperands m rest = some r := by
  rcases decodeWith_cases opc b0 rest with ⟨_, e⟩ | ⟨m, hm, ⟨_, e⟩ | ⟨r', hr, e⟩⟩
  · cases e.symm.trans h
  · cases e.symm.trans h
  · cases e.symm.trans h
    exact ⟨m, hm, hr⟩

/-- A decoding error names the opcode byte. -/
theorem decodeWith_error {e : DecodeError} (h : decodeWith opc b0 rest = .error e) :
    e = .unrecognized b0 ∨ e = .operandsMissing b0 := by
  rcases decodeWith_cases opc b0 rest with ⟨_, e'⟩ | ⟨_, _, ⟨_, e'⟩ | ⟨_, _, e'⟩⟩
  · exact .inl (Except.error.inj (h.symm.trans e'))
  · exact .inr (Except.error.inj (h.symm.trans e'))
  · cases h.symm.trans e'

end Answers

/-! ### The operands, by format -/

theorem Mnemonic.nops_le_two (m : Mnemonic) : m.nops ≤ 2 := by cases m <;> decide

section Operands

variable {m : Mnemonic} {rest left : List Byte} {i : Instr}

/-- Format F1 yields an instruction whose one operand byte it took. -/
theorem formatF1_operandBytes {mk : Byte → Instr} (hmk : ∀ a, (mk a).mnemonic = m ∧ (mk a).operandBytes = [a])
    (h : formatF1 mk rest = some (i, left)) : i.mnemonic = m ∧ i.operandBytes ++ left = rest := by
  obtain ⟨a, tail, rfl, hr⟩ := formatF1_some h
  obtain ⟨rfl, rfl⟩ := Prod.mk.inj hr
  obtain ⟨hm, hbytes⟩ := hmk a
  exact ⟨hm, by rw [hbytes]; rfl⟩

/-- Format F2 yields an instruction whose two operand bytes it took. -/
theorem formatF2_operandBytes {mk : Byte → Byte → Instr}
    (hmk : ∀ a b, (mk a b).mnemonic = m ∧ (mk a b).operandBytes = [a, b])
    (h : formatF2 mk rest = some (i, left)) : i.mnemonic = m ∧ i.operandBytes ++ left = rest := by
  obtain ⟨a, b, tail, rfl, hr⟩ := formatF2_some h
  obtain ⟨rfl, rfl⟩ := Prod.mk.inj hr
  obtain ⟨hm, hbytes⟩ := hmk a b
  exact ⟨hm, by rw [hbytes]; rfl⟩

/-- The decoded instruction is of the mnemonic asked for, and its operand bytes are those taken. -/
theorem decodeOperands_some (h : decodeOperands m rest = some (i, left)) :
    i.mnemonic = m ∧ i.operandBytes ++ left = rest := by
  cases m with
  | hlt | ret | iret =>
    obtain ⟨rfl, rfl⟩ := Prod.mk.inj (Option.some.inj h)
    exact ⟨rfl, rfl⟩
  | prn | pra | push | pop | call | jmp | jeq | jne => exact formatF1_operandBytes (fun _ => ⟨rfl, rfl⟩) h
  | ldi | add | st | cmp | mul => exact formatF2_operandBytes (fun _ _ => ⟨rfl, rfl⟩) h

theorem formatF1_eq_none_iff {mk : Byte → Instr} : formatF1 mk rest = none ↔ rest.length < 1 := by
  cases rest <;> simp [formatF1]

theorem formatF2_eq_none_iff {mk : Byte → Byte → Instr} : formatF2 mk rest = none ↔ rest.length < 2 := by
  match rest with
  | [] | [_] | _ :: _ :: _ => simp [formatF2]

/-- The operands are missing exactly when fewer bytes follow than the operand count. -/
theorem decodeOperands_eq_none_iff : decodeOperands m rest = none ↔ rest.length < m.nops := by
  cases m with
  | hlt | ret | iret => exact ⟨nofun, nofun⟩
  | prn | pra | push | pop | call | jmp | jeq | jne => exact formatF1_eq_none_iff
  | ldi | add | st | cmp | mul => exact formatF2_eq_none_iff

end Operands

/-! ### Round trips, and the answers by opcode byte and length -/

theorem decodeWith_encoding {opc : OpcodeMap} (h : opc.wf) (i : Instr) (rest : List Byte) :
    decodeWith opc (opc.byte i.mnemonic) (i.operandBytes ++ rest) = .ok (i, rest) :=
  decodeWith_of_some (mnemonicOf_opcode h i.mnemonic) (decodeOperands_operandBytes i rest)

/-- Settles O8: an injective map finds the mnemonic by its byte, and the operand bytes are taken as they were put. -/
theorem decodingAnEncodedInstructionGivesItBack : Obligations.DecodingAnEncodedInstructionGivesItBack := by
  unfold Obligations.DecodingAnEncodedInstructionGivesItBack
  exact fun opc i rest h => ⟨opc.byte i.mnemonic, i.operandBytes, rfl, decodeWith_encoding h i rest⟩

/-- Bytes that decode to an instruction: its opcode byte, its operand bytes, and what is left over. -/
theorem bytes_of_decodeWith {opc : OpcodeMap} {b0 : Byte} {rest left : List Byte} {i : Instr}
    (h : decodeWith opc b0 rest = .ok (i, left)) :
    opc.byte i.mnemonic = b0 ∧ i.operandBytes ++ left = rest := by
  obtain ⟨m, hm, hr⟩ := decodeWith_ok h
  obtain ⟨rfl, hbytes⟩ := decodeOperands_some hr
  exact ⟨opcode_of_mnemonicOf hm, hbytes⟩

/-- Settles O9: the lookup found the opcode byte, and the operands were taken from the bytes after it. -/
theorem decodedBytesAreTheEncoding : Obligations.DecodedBytesAreTheEncoding := by
  unfold Obligations.DecodedBytesAreTheEncoding
  intro opc b0 rest left i h
  obtain ⟨hopcode, hbytes⟩ := bytes_of_decodeWith h
  rw [encodeWith, List.cons_append, hopcode, hbytes]

/-- Settles O10: the lookup decides the first answer, the number of bytes between the other two; an injective map leaves
one mnemonic to ask. -/
theorem decodingIsExactlyOneOfThree : Obligations.DecodingIsExactlyOneOfThree := by
  unfold Obligations.DecodingIsExactlyOneOfThree
  intro opc b0 rest h
  simp only [← mnemonicOf_none, ← mnemonicOf_eq_some_iff h]
  rcases decodeWith_cases opc b0 rest with ⟨hm, e⟩ | ⟨m, hm, ⟨hr, e⟩ | ⟨r, hr, e⟩⟩
  · simp [hm, e]
  · have hshort : rest.length < m.nops := decodeOperands_eq_none_iff.mp hr
    simp [hm, e, hshort]
  · have hlong : m.nops ≤ rest.length := Nat.not_lt.mp fun hs => by simp [decodeOperands_eq_none_iff.mpr hs] at hr
    simp [hm, e, hlong]

/-- Settles O11: the operand count stands in bits 7:6 of the opcode byte, and no mnemonic has three operands. -/
theorem lengthComesFromTheOpcodeBits : Obligations.LengthComesFromTheOpcodeBits := by
  unfold Obligations.LengthComesFromTheOpcodeBits
  intro opc b0 rest h
  have hcount (m : Mnemonic) : (opc.byte m).toNat / 64 = m.nops := h.1 m m.mem_all
  refine ⟨fun i left hi => ?consumed, fun hb => ?three⟩
  case consumed =>
    obtain ⟨rfl, rfl⟩ := bytes_of_decodeWith hi
    rw [hcount, List.length_append, i.length_operandBytes, Nat.add_comm]
  case three =>
    refine decodeWith_of_none (mnemonicOf_none.mpr fun m hm => ?_)
    have hnops : m.nops = 3 := by rw [← hcount, hm, hb]
    exact absurd m.nops_le_two (by omega)

/-- Settles O12: each word is looked up in the default map. -/
theorem writtenOutWordsDecode : Obligations.WrittenOutWordsDecode := by
  unfold Obligations.WrittenOutWordsDecode
  decide

namespace Machine

/-! ### The operand window -/

section Window

variable {s : State} {i : Instr}

/-- The bytes after the opcode that lie inside memory: two, one at 0xFE, none at 0xFF. -/
theorem operandWindow_eq (s : State) :
    operandWindow s =
      (List.range (min 2 (255 - s.pc.toNat))).map fun k => s.load (BitVec.ofNat 8 (s.pc.toNat + 1 + k)) := by
  rw [operandWindow]
  congr 1
  generalize hn : s.pc.toNat = n
  have hpc : n < 256 := hn ▸ s.pc.isLt
  obtain h | rfl | rfl : n ≤ 253 ∨ n = 254 ∨ n = 255 := by omega
  · have h0 : n + 1 < 256 := by omega
    have h1 : n + 1 + 1 < 256 := by omega
    have hmin : min 2 (255 - n) = 2 := by omega
    simp only [hmin, List.range_succ, Config.memSize]
    simp [h0, h1]
  · rfl
  · rfl

theorem length_operandWindow (s : State) : (operandWindow s).length = min 2 (255 - s.pc.toNat) := by
  simp [operandWindow_eq]

/-- Where the operand bytes of an instruction stand behind PC, the window begins with them. -/
theorem operandWindow_of_operands (hpc : s.pc.toNat + i.operandBytes.length ≤ 255)
    (hbytes : ∀ (k : Nat) (h : k < i.operandBytes.length),
      s.load (BitVec.ofNat 8 (s.pc.toNat + 1 + k)) = i.operandBytes[k]) :
    ∃ rest, operandWindow s = i.operandBytes ++ rest := by
  have hcount : i.operandBytes.length ≤ 2 := i.length_operandBytes ▸ i.mnemonic.nops_le_two
  have hlong : i.operandBytes.length ≤ (operandWindow s).length := by rw [length_operandWindow]; omega
  have htake : (operandWindow s).take i.operandBytes.length = i.operandBytes :=
    List.ext_getElem (List.length_take_of_le hlong) fun k _ hk => by simp [operandWindow_eq, hbytes k hk]
  exact ⟨_, (congrArg (· ++ _) htake ▸ List.take_append_drop _ _).symm⟩

end Window

/-! ### The fetch -/

section Fetch

variable {s : State} {i : Instr}

theorem fetch_of_ok {r : Instr × List Byte} (h : decodeWith s.opc (s.load s.pc) (operandWindow s) = .ok r) :
    fetch s = .ok r.1 := by
  simp [fetch, h]

theorem fetch_of_error {e : DecodeError} (h : decodeWith s.opc (s.load s.pc) (operandWindow s) = .error e) :
    fetch s = .error e := by
  simp [fetch, h]

/-- A fetched instruction is of the mnemonic whose opcode byte stands at PC. -/
theorem opcode_of_fetch (h : fetch s = .ok i) : s.opc.byte i.mnemonic = s.load s.pc := by
  cases hd : decodeWith s.opc (s.load s.pc) (operandWindow s) with
  | error e => cases (fetch_of_error hd).symm.trans h
  | ok r =>
    cases (fetch_of_ok hd).symm.trans h
    exact (bytes_of_decodeWith hd).1

/-- A failed fetch names the byte at PC. -/
theorem fetch_error {e : DecodeError} (h : fetch s = .error e) :
    e = .unrecognized (s.load s.pc) ∨ e = .operandsMissing (s.load s.pc) := by
  cases hd : decodeWith s.opc (s.load s.pc) (operandWindow s) with
  | error e' =>
    cases (fetch_of_error hd).symm.trans h
    exact decodeWith_error hd
  | ok r => cases (fetch_of_ok hd).symm.trans h

/-- Settles O13: the window begins with the operand bytes, and decoding an encoded instruction gives it back. -/
theorem theFetchReadsTheBytesAtPc : Obligations.TheFetchReadsTheBytesAtPc := by
  unfold Obligations.TheFetchReadsTheBytesAtPc
  intro s i hopc hpc hopcode hbytes
  obtain ⟨rest, hwindow⟩ := operandWindow_of_operands hpc hbytes
  have hdecode : decodeWith s.opc (s.load s.pc) (operandWindow s) = .ok (i, rest) := by
    rw [hopcode, hwindow]
    exact decodeWith_encoding hopc i rest
  exact fetch_of_ok hdecode

end Fetch

end Machine
end Sys2Proof
end

section
/-! PROOFS. Totality, the frames of the instructions, and what a step can change (`40_cycle.md` R95, `10_state.md` R26, R31,
R33, `20_memory.md` section 4). -/

namespace Sys2Proof.Machine

/-! ### Every instruction answers a next state -/

section Total

variable {m : Mnemonic} {s : State}

theorem inRange_total {k : Result} (h : ∃ t, k = .next t) : ∃ t, inRange m s k = .next t := by
  unfold inRange
  split
  · exact ⟨_, rfl⟩
  · exact h

theorem withReg_total {b : Byte} {k : Fin 8 → Result} (h : ∀ r, ∃ t, k r = .next t) : ∃ t, withReg b s k = .next t := by
  by_cases hb : b.toNat < 8
  · exact withReg_ok hb ▸ h _
  · exact ⟨_, withReg_fault hb⟩

theorem exec_total (i : Instr) (s : State) : ∃ t, exec i s = .next t := by
  cases i with
  | hlt | ret | iret => exact inRange_total ⟨_, rfl⟩
  | ldi | prn | pra | push | pop | call | jmp | jeq | jne => exact inRange_total (withReg_total fun _ => ⟨_, rfl⟩)
  | add | st | cmp | mul => exact inRange_total (withReg_total fun _ => withReg_total fun _ => ⟨_, rfl⟩)

end Total

section Fetched

variable {s : State}

theorem fetchAndExecute_of_ok {i : Instr} (h : fetch s = .ok i) : fetchAndExecute s = exec i s := by
  simp [fetchAndExecute, h]

theorem fetchAndExecute_of_unrecognized {ir : Byte} (h : fetch s = .error (.unrecognized ir)) :
    fetchAndExecute s = .next (s.afterFault .unrecognizedOpcode ir) := by
  simp [fetchAndExecute, h, State.raiseFault, State.afterFault]

theorem fetchAndExecute_of_operandsMissing {ir : Byte} (h : fetch s = .error (.operandsMissing ir)) :
    fetchAndExecute s = .next (s.afterFault .addressRange ir) := by
  simp [fetchAndExecute, h, State.raiseFault, State.afterFault]

theorem fetchAndExecute_total (s : State) : ∃ t, fetchAndExecute s = .next t := by
  match h : fetch s with
  | .ok i => exact fetchAndExecute_of_ok h ▸ exec_total i s
  | .error (.unrecognized _) => exact ⟨_, fetchAndExecute_of_unrecognized h⟩
  | .error (.operandsMissing _) => exact ⟨_, fetchAndExecute_of_operandsMissing h⟩

theorem tick_of_not_running (h : s.run ≠ .running) : tick s = .next s := by
  simp [tick, h]

theorem tick_total (s : State) : ∃ t, tick s = .next t := by
  by_cases hrun : s.run = .running
  · by_cases hdue : InterruptDue s
    · exact ⟨_, tick_of_interruptDue hrun hdue⟩
    · exact tick_of_not_interruptDue hrun hdue ▸ fetchAndExecute_total s
  · exact ⟨s, tick_of_not_running hrun⟩

theorem step_of_live (h : s.live = true) : step s = tick (boundary s) := by
  simp [step, runOnce, h]

theorem step_of_not_live (h : s.live = false) : step s = .next s := by
  simp [step, runOnce, h]

end Fetched

/-- Settles O15: an instruction's checks and effect, a tick's three ways and a step each answer a state. -/
theorem everyStepAndInstructionAnswersANextState : Obligations.EveryStepAndInstructionAnswersANextState := by
  unfold Obligations.EveryStepAndInstructionAnswersANextState
  refine ⟨fun s => ?_, exec_total⟩
  cases hlive : s.live with
  | true => exact step_of_live hlive ▸ tick_total (boundary s)
  | false => exact ⟨s, step_of_not_live hlive⟩

/-! ### The frame of an instruction, faults included -/

section ExecFrame

variable {i : Instr} {s t : State}

/-- What holds after each fault and within the frame holds after the instruction. -/
theorem exec_elim {P : State → Prop} (h : exec i s = .next t) (hfault : ∀ cause info, P (s.afterFault cause info))
    (hframe : ∀ t, Frame i s t → P t) : P t := by
  rcases exec_frame h with hf | ⟨hf, _⟩
  · obtain ⟨cause, info, _, rfl⟩ := hf.eq_afterFault
    exact hfault cause info
  · exact hframe t hf

theorem Frame.load (h : Frame i s t) (x : Byte) : t.load x = s.load x ∨ StoresAt i s x := by
  rcases h.mem with ht | ⟨y, v, hy, ht⟩
  · exact .inl (congrArg (Memory.read · x) ht)
  · by_cases hx : x = y
    · exact .inr (hx ▸ hy)
    · exact .inl ((congrArg (Memory.read · x) ht).trans (Memory.read_write_ne _ _ hx))

theorem Frame.sameRun (h : Frame i s t) :
    SameRunOrFault s t ∨ i = .hlt ∧ t.run = .halted ∧ t.fcause = s.fcause ∧ t.finfo = s.finfo := by
  rcases h.run with hrun | ⟨hi, hrun⟩
  · exact .inl (.inl ⟨hrun, h.record⟩)
  · exact .inr ⟨hi, hrun, h.record⟩

theorem exec_platform (h : exec i s = .next t) : SamePlatform s t :=
  exec_elim h (fun _ _ => ⟨rfl, rfl, rfl, rfl⟩) fun _ hf => hf.platform

theorem exec_reg (h : exec i s = .next t) (k : Fin 8) : t.reg k = s.reg k ∨ WritesReg i k :=
  exec_elim h (fun _ _ => .inl rfl) fun _ hf => hf.reg k

theorem exec_load (h : exec i s = .next t) (x : Byte) : t.load x = s.load x ∨ StoresAt i s x :=
  exec_elim h (fun _ _ => .inl rfl) fun _ hf => hf.load x

theorem exec_fl (h : exec i s = .next t) : t.fl = s.fl ∨ i.mnemonic = .cmp ∨ i.mnemonic = .iret :=
  exec_elim h (fun _ _ => .inl rfl) fun _ hf => hf.fl

theorem exec_out (h : exec i s = .next t) :
    t.out = s.out ∨ (i.mnemonic = .prn ∨ i.mnemonic = .pra) ∧ ∃ e, t.out = s.out ++ [e] :=
  exec_elim h (fun _ _ => .inl rfl) fun _ hf => hf.out

theorem exec_run (h : exec i s = .next t) :
    SameRunOrFault s t ∨ i = .hlt ∧ t.run = .halted ∧ t.fcause = s.fcause ∧ t.finfo = s.finfo :=
  exec_elim h (fun _ _ => .inl (.inr ⟨_, _, rfl⟩)) fun _ hf => hf.sameRun

end ExecFrame

/-- An instruction other than CMP, IRET, PRN, PRA and HLT writes neither FL nor the output, and RUN only by a fault. -/
theorem exec_keeps_fl_out_run {i : Instr} {s t : State} (hi : i.mnemonic ∉ [.cmp, .iret, .prn, .pra, .hlt])
    (ht : exec i s = .next t) : t.fl = s.fl ∧ t.out = s.out ∧ SameRunOrFault s t ∧ SamePlatform s t := by
  have hfl : ¬ (i.mnemonic = .cmp ∨ i.mnemonic = .iret) := by rintro (h | h) <;> simp [h] at hi
  have hout : ¬ (i.mnemonic = .prn ∨ i.mnemonic = .pra) := by rintro (h | h) <;> simp [h] at hi
  have hhlt : i ≠ .hlt := by
    rintro rfl
    simp [Instr.mnemonic] at hi
  exact ⟨(exec_fl ht).resolve_right hfl, (exec_out ht).resolve_right fun h => hout h.1,
    (exec_run ht).resolve_right fun h => hhlt h.1, exec_platform ht⟩

/-- Settles O44: none of the three is among the instructions that write anything else. -/
theorem registerWritersChangeOnlyTheirRegister : Obligations.RegisterWritersChangeOnlyTheirRegister := by
  unfold Obligations.RegisterWritersChangeOnlyTheirRegister
  intro s t a b i hi ht
  have hreg (k : Fin 8) (hk : k.val ≠ a.toNat) : ¬ WritesReg i k := by
    rcases hi with rfl | rfl | rfl <;> exact hk
  have hstores (x : Byte) : ¬ StoresAt i s x := by
    rcases hi with rfl | rfl | rfl <;> exact id
  have hmnemonic : i.mnemonic ∉ [.cmp, .iret, .prn, .pra, .hlt] := by
    rcases hi with rfl | rfl | rfl <;> simp [Instr.mnemonic]
  obtain ⟨hfl, hrest⟩ := exec_keeps_fl_out_run hmnemonic ht
  exact ⟨fun k hk => (exec_reg ht k).resolve_right (hreg k hk), hfl,
    fun x => (exec_load ht x).resolve_right (hstores x), hrest⟩

/-- Settles O45: the seven forms write no register and no cell; CMP alone of them writes FL, PRN and PRA alone the output. -/
theorem nonStoringFormsChangeNoRegisterAndNoCell : Obligations.NonStoringFormsChangeNoRegisterAndNoCell := by
  unfold Obligations.NonStoringFormsChangeNoRegisterAndNoCell
  intro s t a b i hi ht
  have hreg (k : Fin 8) : ¬ WritesReg i k := by
    rcases hi with rfl | rfl | rfl | rfl | rfl | rfl | rfl <;> exact id
  have hstores (x : Byte) : ¬ StoresAt i s x := by
    rcases hi with rfl | rfl | rfl | rfl | rfl | rfl | rfl <;> exact id
  have hfl (hcmp : i ≠ .cmp a b) : ¬ (i.mnemonic = .cmp ∨ i.mnemonic = .iret) := by
    rcases hi.resolve_left hcmp with rfl | rfl | rfl | rfl | rfl | rfl <;> simp [Instr.mnemonic]
  have hout (hprn : i ≠ .prn a) (hpra : i ≠ .pra a) : ¬ (i.mnemonic = .prn ∨ i.mnemonic = .pra) := by
    rcases hi with rfl | rfl | rfl | rfl | rfl | rfl | rfl
    case inr.inl => exact absurd rfl hprn
    case inr.inr.inl => exact absurd rfl hpra
    all_goals simp [Instr.mnemonic]
  exact ⟨fun k => (exec_reg ht k).resolve_right (hreg k), fun x => (exec_load ht x).resolve_right (hstores x),
    fun hcmp => (exec_fl ht).resolve_right (hfl hcmp),
    fun hprn hpra => (exec_out ht).resolve_right fun h => hout hprn hpra h.1, exec_run ht, exec_platform ht⟩

/-- Settles O46: the cell each of the three stores to is the one named. -/
theorem storingFormsChangeOnlyTheirCell : Obligations.StoringFormsChangeOnlyTheirCell := by
  unfold Obligations.StoringFormsChangeOnlyTheirCell
  refine fun s t a b => ⟨fun ht => ?st, fun i hi ht => ?push⟩
  case st =>
    exact ⟨fun k => (exec_reg ht k).resolve_right id,
      fun ha x hx => (exec_load ht x).resolve_right fun ⟨_, e⟩ => hx e,
      fun ha x => (exec_load ht x).resolve_right fun ⟨ha', _⟩ => Nat.not_le.mpr ha' ha,
      exec_keeps_fl_out_run (by simp [Instr.mnemonic]) ht⟩
  case push =>
    have hreg (k : Fin 8) (hk : k ≠ 7) : ¬ WritesReg i k := by
      rcases hi with rfl | rfl <;> exact hk
    have hstores (x : Byte) (hx : x ≠ s.reg 7 - 1) : ¬ StoresAt i s x := by
      rcases hi with rfl | rfl <;> exact hx
    have hmnemonic : i.mnemonic ∉ [.cmp, .iret, .prn, .pra, .hlt] := by
      rcases hi with rfl | rfl <;> simp [Instr.mnemonic]
    exact ⟨fun k hk => (exec_reg ht k).resolve_right (hreg k hk),
      fun x hx => (exec_load ht x).resolve_right (hstores x hx), exec_keeps_fl_out_run hmnemonic ht⟩

/-- Settles O47: the three store nothing, and RET and POP write only the registers named. -/
theorem poppingFormsChangeNoCell : Obligations.PoppingFormsChangeNoCell := by
  unfold Obligations.PoppingFormsChangeNoCell
  intro s t a i hi ht
  have hstores (x : Byte) : ¬ StoresAt i s x := by
    rcases hi with rfl | rfl | rfl <;> exact id
  have hout : ¬ (i.mnemonic = .prn ∨ i.mnemonic = .pra) := by
    rcases hi with rfl | rfl | rfl <;> simp [Instr.mnemonic]
  have hhlt : i ≠ .hlt := by
    rcases hi with rfl | rfl | rfl <;> nofun
  have hfl (hiret : i ≠ .iret) : ¬ (i.mnemonic = .cmp ∨ i.mnemonic = .iret) := by
    rcases hi with rfl | rfl | rfl
    case inr.inr => exact absurd rfl hiret
    all_goals simp [Instr.mnemonic]
  have hreg (hiret : i ≠ .iret) (k : Fin 8) (h7 : k ≠ 7) (hk : i = .ret ∨ k.val ≠ a.toNat) : ¬ WritesReg i k := by
    rcases hi with rfl | rfl | rfl
    · exact not_or.mpr ⟨h7, hk.resolve_left nofun⟩
    · exact h7
    · exact absurd rfl hiret
  exact ⟨fun x => (exec_load ht x).resolve_right (hstores x), (exec_out ht).resolve_right fun h => hout h.1,
    (exec_run ht).resolve_right fun h => hhlt h.1, exec_platform ht,
    fun hiret => ⟨(exec_fl ht).resolve_right (hfl hiret),
      fun k h7 hk => (exec_reg ht k).resolve_right (hreg hiret k h7 hk)⟩⟩

/-! ### What a step can change -/

section Step

variable {s t : State}

/-- A step that changes what the boundary and a fault keep has entered the interrupt or run the fetched instruction. -/
theorem step_changes {α : Type} (f : State → α) (hboundary : ∀ s, f (boundary s) = f s)
    (hfault : ∀ s cause info, f (s.afterFault cause info) = f s) (ht : step s = .next t) (hne : f t ≠ f s) :
    (InterruptDue (boundary s) ∧ t = enterInterrupt (boundary s)) ∨
      ∃ i, fetch s = .ok i ∧ exec i (boundary s) = .next t := by
  rcases step_next ht with ⟨_, rfl⟩ | ⟨_, _, heffect⟩
  · exact absurd rfl hne
  rcases heffect with hentry | ⟨_, ⟨i, hfetch, hexec⟩ | ⟨ir, _, rfl⟩ | ⟨ir, _, rfl⟩⟩
  · exact .inl hentry
  · exact .inr ⟨i, fetch_boundary s ▸ hfetch, hexec⟩
  · exact absurd ((hfault _ .unrecognizedOpcode ir).trans (hboundary s)) hne
  · exact absurd ((hfault _ .addressRange ir).trans (hboundary s)) hne

/-- Settles O48: the boundary, an entry and a fault keep FL, and so does every other instruction. -/
theorem onlyCmpAndIretChangeTheFlags : Obligations.OnlyCmpAndIretChangeTheFlags := by
  unfold Obligations.OnlyCmpAndIretChangeTheFlags
  intro s t ht hne
  rcases step_changes (·.fl) boundary_fl (fun _ _ _ => rfl) ht hne with ⟨_, rfl⟩ | ⟨i, hfetch, hexec⟩
  · exact absurd (boundary_fl s) hne
  · exact ⟨i, hfetch, (exec_fl hexec).resolve_left (by rwa [boundary_fl])⟩

/-- Settles O49: the boundary, an entry and a fault keep the output, and an instruction's frame allows one event. -/
theorem outputGrowsOnlyByPrnAndPra : Obligations.OutputGrowsOnlyByPrnAndPra := by
  unfold Obligations.OutputGrowsOnlyByPrnAndPra
  intro s t ht
  by_cases hout : t.out = s.out
  · exact .inl hout
  rcases step_changes (·.out) boundary_out (fun _ _ _ => rfl) ht hout with ⟨_, rfl⟩ | ⟨i, hfetch, hexec⟩
  · exact absurd (boundary_out s) hout
  · have hgrows := exec_out hexec
    rw [boundary_out] at hgrows
    obtain ⟨hi, e, he⟩ := hgrows.resolve_left hout
    exact .inr ⟨i, e, hfetch, hi, he⟩

/-- Settles O50: an entry stores only within nine cells below SP, an instruction only where it is named to. -/
theorem onlyTheListedWritesChangeMemory : Obligations.OnlyTheListedWritesChangeMemory := by
  unfold Obligations.OnlyTheListedWritesChangeMemory
  intro s t x ht hne
  have hsp : (boundary s).reg 7 = s.reg 7 := boundary_reg s (by decide)
  rcases step_changes (·.load x) (boundary_load · x) (fun _ _ _ => rfl) ht hne with ⟨hdue, rfl⟩ | ⟨i, hfetch, hexec⟩
  · have hinside : ¬ (9 < (s.reg 7 - x).toNat ∨ x = s.reg 7) := fun h =>
      hne ((enterInterrupt_load_outside (boundary s) (hsp ▸ h)).trans (boundary_load s x))
    exact .inl ⟨hdue, by bv_omega, by omega⟩
  · have hstores : StoresAt i (boundary s) x := (exec_load hexec x).resolve_left (by rwa [boundary_load])
    cases i with
    | st a b => exact .inr (.inl ⟨a, b, hfetch, hstores⟩)
    | push a => exact .inr (.inr ⟨a, .inl hfetch, hsp ▸ hstores⟩)
    | call a => exact .inr (.inr ⟨a, .inr hfetch, hsp ▸ hstores⟩)
    | ldi | prn | pra | hlt | pop | ret | add | iret | jmp | cmp | jeq | jne | mul => exact hstores.elim

/-- Settles O51: a step of a running machine keeps RUN, halts it by HLT, or faults. -/
theorem onlyHltHalts : Obligations.OnlyHltHalts := by
  unfold Obligations.OnlyHltHalts
  intro s t ht hne
  rcases step_next ht with ⟨_, rfl⟩ | ⟨_, hrun, heffect⟩
  · exact absurd rfl hne
  refine ⟨hrun, ?_⟩
  rcases heffect with ⟨_, rfl⟩ | ⟨_, ⟨i, hfetch, hexec⟩ | ⟨ir, _, rfl⟩ | ⟨ir, _, rfl⟩⟩
  · exact absurd (boundary_run s) hne
  · rw [fetch_boundary] at hfetch
    rcases exec_run hexec with (⟨hsame, _⟩ | ⟨cause, info, rfl⟩) | ⟨rfl, hhalted, _⟩
    · exact absurd (hsame.trans (boundary_run s)) hne
    · exact .inr rfl
    · exact .inl ⟨hhalted, hfetch⟩
  · exact .inr rfl
  · exact .inr rfl

/-! ### The opcode map stays -/

theorem tick_opc (ht : tick s = .next t) : t.opc = s.opc := by
  rcases tick_next ht with ⟨_, rfl⟩ | ⟨_, ⟨_, rfl⟩ | ⟨_, ⟨i, _, hexec⟩ | ⟨ir, _, rfl⟩ | ⟨ir, _, rfl⟩⟩⟩
  · rfl
  · rfl
  · obtain ⟨_, _, _, hopc⟩ := exec_platform hexec
    exact hopc
  · rfl
  · rfl

theorem step_opc (ht : step s = .next t) : t.opc = s.opc := by
  cases hlive : s.live with
  | true => exact (tick_opc (step_of_live hlive ▸ ht)).trans (boundary_opc s)
  | false => cases (step_of_not_live hlive).symm.trans ht; rfl

theorem transact_opc {x : Transaction} (ht : transact x s = .next t) : t.opc = s.opc := by
  cases x with
  | reset | stop => cases ht; rfl
  | load addr v => exact loadByte_next ht ▸ rfl
  | tick =>
    rcases transact_tick_next ht with ⟨_, rfl⟩ | ⟨_, ht⟩
    · rfl
    · exact tick_opc (s := countTick s) ht
  | irq => rcases transact_irq_next ht with rfl | rfl <;> rfl

/-- Settles O53: each transaction keeps the map, and so does a step. -/
theorem nothingChangesTheOpcodeMap : Obligations.NothingChangesTheOpcodeMap := by
  unfold Obligations.NothingChangesTheOpcodeMap
  exact ⟨fun _ s _ => transactAll_keeps (P := (·.opc = s.opc)) (fun _ _ _ _ h ht => (transact_opc ht).trans h) rfl,
    fun _ _ => step_opc⟩

end Step

/-! ### The output stream is not read -/

/-- A state with earlier events put before its own. -/
def State.withEarlier (earlier : List OutEvent) (s : State) : State := { s with out := earlier ++ s.out }

/-- A result whose next state has earlier events put before its own. -/
def Result.withEarlier (earlier : List OutEvent) : Result → Result
  | .next s => .next (s.withEarlier earlier)
  | .fault r => .fault r
  | .refused r => .refused r

section Earlier

variable {earlier : List OutEvent} {s u u' : State} {m : Mnemonic}

theorem inRange_withEarlier {k k' : Result} (h : k' = Result.withEarlier earlier k) :
    inRange m (s.withEarlier earlier) k' = Result.withEarlier earlier (inRange m s k) := by
  have hneed : neededAddress m (s.withEarlier earlier) = neededAddress m s := rfl
  by_cases hn : neededAddress m s ≤ 255
  · rw [inRange_ok hn, inRange_ok (hneed ▸ hn), h]
  · rw [inRange_fault (Nat.not_le.mp hn), inRange_fault (hneed ▸ Nat.not_le.mp hn)]
    rfl

theorem withReg_withEarlier {b : Byte} {k k' : Fin 8 → Result} (h : ∀ r, k' r = Result.withEarlier earlier (k r)) :
    withReg b (s.withEarlier earlier) k' = Result.withEarlier earlier (withReg b s k) := by
  by_cases hb : b.toNat < 8
  · rw [withReg_ok hb, withReg_ok hb, h]
  · rw [withReg_fault hb, withReg_fault hb]
    rfl

theorem finish_withEarlier (h : u' = u.withEarlier earlier) :
    finish m u' = Result.withEarlier earlier (finish m u) := by
  subst h
  unfold finish State.advance
  cases hj : u.jumped <;> simp [State.withEarlier, Result.withEarlier, hj]

theorem emit_withEarlier (e : OutEvent) : (s.withEarlier earlier).emit e = (s.emit e).withEarlier earlier := by
  simp [State.withEarlier, State.emit]

theorem stateRestore_withEarlier : stateRestore (s.withEarlier earlier) = (stateRestore s).withEarlier earlier := by
  rw [stateRestore_eq_jumpTo, stateRestore_eq_jumpTo]
  rfl

theorem exec1_withEarlier {a : Byte} {k k' : Fin 8 → State} (h : ∀ r, k' r = (k r).withEarlier earlier) :
    inRange m (s.withEarlier earlier) (withReg a (s.withEarlier earlier) fun r => finish m (k' r)) =
      Result.withEarlier earlier (inRange m s (withReg a s fun r => finish m (k r))) :=
  inRange_withEarlier (withReg_withEarlier fun r => finish_withEarlier (h r))

theorem exec2_withEarlier {a b : Byte} {k k' : Fin 8 → Fin 8 → State}
    (h : ∀ ra rb, k' ra rb = (k ra rb).withEarlier earlier) :
    inRange m (s.withEarlier earlier) (withReg a (s.withEarlier earlier) fun ra =>
        withReg b (s.withEarlier earlier) fun rb => finish m (k' ra rb)) =
      Result.withEarlier earlier (inRange m s (withReg a s fun ra => withReg b s fun rb => finish m (k ra rb))) :=
  inRange_withEarlier (withReg_withEarlier fun ra => withReg_withEarlier fun rb => finish_withEarlier (h ra rb))

theorem exec_withEarlier (i : Instr) :
    exec i (s.withEarlier earlier) = Result.withEarlier earlier (exec i s) := by
  cases i with
  | hlt | ret => exact inRange_withEarlier (finish_withEarlier rfl)
  | iret => exact inRange_withEarlier (finish_withEarlier stateRestore_withEarlier)
  | ldi | push | pop | call | jmp => exact exec1_withEarlier fun _ => rfl
  | prn | pra => exact exec1_withEarlier fun _ => emit_withEarlier _
  | jeq a =>
    exact exec1_withEarlier fun r =>
      (apply_ite (State.withEarlier earlier) (s.equalFlag = true) (s.jumpTo (s.reg r)) s).symm
  | jne a =>
    exact exec1_withEarlier fun r =>
      (apply_ite (State.withEarlier earlier) (s.equalFlag = true) s (s.jumpTo (s.reg r))).symm
  | add | st | cmp | mul => exact exec2_withEarlier fun _ _ => rfl

theorem enterInterrupt_withEarlier :
    enterInterrupt (s.withEarlier earlier) = (enterInterrupt s).withEarlier earlier := rfl

theorem fetchAndExecute_withEarlier :
    fetchAndExecute (s.withEarlier earlier) = Result.withEarlier earlier (fetchAndExecute s) := by
  have hfetch : fetch (s.withEarlier earlier) = fetch s := rfl
  match h : fetch s with
  | .ok i => rw [fetchAndExecute_of_ok h, fetchAndExecute_of_ok (hfetch.trans h), exec_withEarlier]
  | .error (.unrecognized _) =>
    rw [fetchAndExecute_of_unrecognized h, fetchAndExecute_of_unrecognized (hfetch.trans h)]
    rfl
  | .error (.operandsMissing _) =>
    rw [fetchAndExecute_of_operandsMissing h, fetchAndExecute_of_operandsMissing (hfetch.trans h)]
    rfl

theorem tick_withEarlier : tick (s.withEarlier earlier) = Result.withEarlier earlier (tick s) := by
  by_cases hrun : s.run = .running
  · by_cases hdue : InterruptDue s
    · rw [tick_of_interruptDue hrun hdue, tick_of_interruptDue (s := s.withEarlier earlier) hrun hdue,
        enterInterrupt_withEarlier]
      rfl
    · rw [tick_of_not_interruptDue hrun hdue, tick_of_not_interruptDue (s := s.withEarlier earlier) hrun hdue,
        fetchAndExecute_withEarlier]
  · rw [tick_of_not_running hrun, tick_of_not_running (s := s.withEarlier earlier) hrun]
    rfl

theorem boundary_withEarlier : boundary (s.withEarlier earlier) = (boundary s).withEarlier earlier := by
  cases h : s.irqSource.asserts (s.cycle + 1) <;> simp [boundary, sourceActs, State.withEarlier, h] <;> rfl

end Earlier

/-- Settles O52: earlier events pass through the boundary, the checks, the effect and the advance. -/
theorem theOutputStreamIsNeverRead : Obligations.TheOutputStreamIsNeverRead := by
  unfold Obligations.TheOutputStreamIsNeverRead
  intro s t earlier ht
  change step (s.withEarlier earlier) = .next (t.withEarlier earlier)
  cases hlive : s.live with
  | true =>
    rw [step_of_live (s := s.withEarlier earlier) hlive, boundary_withEarlier, tick_withEarlier,
      ← step_of_live hlive, ht]
    rfl
  | false =>
    rw [step_of_not_live (s := s.withEarlier earlier) hlive]
    cases (step_of_not_live hlive).symm.trans ht
    rfl

end Sys2Proof.Machine
end

section
/-! PROOFS. The fatal faults of a tick: which is raised where, and that it is precise (`60_exceptions.md` section 1). -/

namespace Sys2Proof.Machine

/-! ### What an instruction does, by its checks -/

section Checks

variable {i : Instr} {s : State}

/-- An effect read its register operands, so they name registers. -/
theorem ExecEffect.wf {u : State} (h : ExecEffect i s u) : i.wf = true := by
  cases i with
  | hlt | ret | iret => rfl
  | ldi | prn | pra | push | pop | call | jmp | jeq | jne =>
    obtain ⟨ra, ha, _⟩ := h
    simp [Instr.wf, Instr.registerBytes, ← ha]
  | add | st | cmp | mul =>
    obtain ⟨ra, rb, ha, hb, _⟩ := h
    simp [Instr.wf, Instr.registerBytes, ← ha, ← hb]

/-- A well-formed instruction has no register byte above 7. -/
theorem find_bad_of_wf (h : i.wf = true) : i.registerBytes.find? (fun b => 8 ≤ b.toNat) = none := by
  simpa [Instr.wf] using h

/-- The range check comes first: it fails exactly past the needed address. -/
theorem exec_of_out_of_range (h : 255 < neededAddress i.mnemonic s) :
    exec i s = .next (s.afterFault .addressRange (s.opc.byte i.mnemonic)) := by
  obtain ⟨t, ht⟩ := exec_total i s
  rcases exec_next ht with (⟨_, rfl⟩ | ⟨hn, _⟩) | ⟨hn, _⟩
  · exact ht
  · omega
  · omega

/-- In range, the first register byte above 7 is reported. -/
theorem exec_of_bad_register (hn : neededAddress i.mnemonic s ≤ 255) {bad : Byte}
    (h : i.registerBytes.find? (fun b => 8 ≤ b.toNat) = some bad) :
    exec i s = .next (s.afterFault .registerIndex bad) := by
  obtain ⟨t, ht⟩ := exec_total i s
  rcases exec_next ht with (⟨hout, _⟩ | ⟨_, bad', h', rfl⟩) | ⟨_, u, heffect, _⟩
  · omega
  · cases h.symm.trans h'
    exact ht
  · cases (find_bad_of_wf heffect.wf).symm.trans h

/-- In range and with register bytes up to 7, a running machine does not fault. -/
theorem exec_not_faulted {t : State} (hn : neededAddress i.mnemonic s ≤ 255) (hwf : i.wf = true)
    (hrun : s.run = .running) (ht : exec i s = .next t) : t.run ≠ .faulted := by
  rcases exec_frame ht with (⟨hout, _⟩ | ⟨_, bad, hbad, _⟩) | ⟨hframe, _⟩
  · omega
  · cases (find_bad_of_wf hwf).symm.trans hbad
  · exact hframe.run_ne_faulted hrun

/-- The table of `60_exceptions.md` R163 is the range check of `40_cycle.md` R95(2): the needed address exceeds PC by as
much as 255 exceeds the last address. -/
theorem neededAddress_add_lastAddress (m : Mnemonic) (s : State) :
    neededAddress m s + lastAddress m (s.fl[0]) = s.pc.toNat + 255 := by
  cases m with
  | jeq | jne =>
    cases h : s.fl[0] <;> simp [neededAddress, transfers, State.equalFlag, h, lastAddress, Mnemonic.nops]
  | ldi | prn | pra | hlt | push | pop | call | ret | add | st | iret | jmp | cmp | mul =>
    simp [neededAddress, transfers, lastAddress, Mnemonic.nops]

theorem add_nops_le_neededAddress (m : Mnemonic) (s : State) : s.pc.toNat + m.nops ≤ neededAddress m s := by
  unfold neededAddress
  split
  · subst m
    exact Nat.add_le_add_left (by decide) _
  · split <;> omega

end Checks

/-! ### The faults of a tick -/

section Tick

variable {s : State}

theorem tick_of_fetch {i : Instr} (hrun : s.run = .running) (hdue : ¬ InterruptDue s) (h : fetch s = .ok i) :
    tick s = exec i s :=
  (tick_of_not_interruptDue hrun hdue).trans (fetchAndExecute_of_ok h)

/-- Settles O18: the lookup fails outside the image of the map; the default map's image is the sixteen bytes, in another
order. -/
theorem unrecognizedOpcodeIsRaised : Obligations.UnrecognizedOpcodeIsRaised := by
  unfold Obligations.UnrecognizedOpcodeIsRaised
  refine ⟨fun s hrun hdue h => ?raised, fun b => ?image⟩
  case raised =>
    have hfetch := fetch_of_error (s := s) (decodeWith_of_none (mnemonicOf_none.mpr h))
    exact (tick_of_not_interruptDue hrun hdue).trans (fetchAndExecute_of_unrecognized hfetch)
  case image =>
    have himage : (Mnemonic.all.map opcDefault.byte).Perm
        [0x01, 0x09, 0x0B, 0x42, 0x43, 0x48, 0x4C, 0x4D, 0x50, 0x51, 0x52, 0x99, 0x9A, 0xA0, 0xA8, 0xAA] := by decide
    rw [← himage.mem_iff]
    simp [Mnemonic.mem_all]

/-- A fetch of a recognized byte gives an instruction of its mnemonic, or finds too few bytes before the end of memory. -/
theorem fetch_of_recognized {m : Mnemonic} (hopc : s.opc.wf) (h : s.load s.pc = s.opc.byte m) :
    (∃ i, fetch s = .ok i ∧ i.mnemonic = m) ∨
      (fetch s = .error (.operandsMissing (s.opc.byte m)) ∧ 255 < s.pc.toNat + m.nops) := by
  have hm : mnemonicOf s.opc (s.load s.pc) = some m := (mnemonicOf_eq_some_iff hopc).mpr h.symm
  cases hr : decodeOperands m (operandWindow s) with
  | some r =>
    obtain ⟨i, left⟩ := r
    exact .inl ⟨i, fetch_of_ok (decodeWith_of_some hm hr), (decodeOperands_some hr).1⟩
  | none =>
    have hshort := decodeOperands_eq_none_iff.mp hr
    have hcount := m.nops_le_two
    rw [length_operandWindow] at hshort
    exact .inr ⟨h ▸ fetch_of_error (decodeWith_of_short hm hr), by omega⟩

/-- Settles O19: too few bytes lie past the last address, and with enough of them the range check decides. -/
theorem addressRangeIsRaisedExactlyAsTabled : Obligations.AddressRangeIsRaisedExactlyAsTabled := by
  unfold Obligations.AddressRangeIsRaisedExactlyAsTabled
  intro s m hopc hrun hdue hload
  have htable := neededAddress_add_lastAddress m s
  rcases fetch_of_recognized hopc hload with ⟨i, hfetch, rfl⟩ | ⟨hfetch, hshort⟩
  · rw [tick_of_fetch hrun hdue hfetch]
    refine ⟨fun ht => ?_, fun hpc => exec_of_out_of_range (by omega)⟩
    rcases exec_frame ht with (⟨hout, _⟩ | ⟨_, bad, _, ht'⟩) | ⟨hframe, _⟩
    · omega
    · cases congrArg State.fcause ht'
    · exact absurd rfl (hframe.run_ne_faulted hrun)
  · have hneed := add_nops_le_neededAddress m s
    refine ⟨fun _ => by omega, fun _ => ?_⟩
    exact (tick_of_not_interruptDue hrun hdue).trans (fetchAndExecute_of_operandsMissing hfetch)

/-- Settles O20: the range check passes, and the operand checks report the first bad byte or let the effect happen. -/
theorem registerIndexIsRaisedExactlyOnABadOperand : Obligations.RegisterIndexIsRaisedExactlyOnABadOperand := by
  unfold Obligations.RegisterIndexIsRaisedExactlyOnABadOperand
  intro s i hrun hdue hfetch hpc
  have hneed : neededAddress i.mnemonic s ≤ 255 := by
    have := neededAddress_add_lastAddress i.mnemonic s
    omega
  rw [tick_of_fetch hrun hdue hfetch]
  exact ⟨fun _ => exec_of_bad_register hneed, fun hwf _ => exec_not_faulted hneed hwf hrun⟩

/-- Settles O21: each way a tick faults writes the fault record alone. -/
theorem faultsArePrecise : Obligations.FaultsArePrecise := by
  unfold Obligations.FaultsArePrecise
  intro s t hrun ht hfaulted
  rcases tick_next ht with ⟨hstopped, _⟩ | ⟨_, heffect⟩
  · exact absurd hrun hstopped
  rcases heffect with ⟨_, rfl⟩ | ⟨_, ⟨i, hfetch, hexec⟩ | ⟨ir, hfetch, rfl⟩ | ⟨ir, hfetch, rfl⟩⟩
  · cases hrun.symm.trans hfaulted
  · rcases exec_frame hexec with (⟨_, rfl⟩ | ⟨_, bad, hbad, rfl⟩) | ⟨hframe, _⟩
    · exact ⟨rfl, nofun, fun _ => opcode_of_fetch hfetch, nofun⟩
    · have h8 : 8 ≤ bad.toNat := by simpa using List.find?_some hbad
      exact ⟨rfl, nofun, fun h => absurd rfl h, fun _ => h8⟩
    · exact absurd hfaulted (hframe.run_ne_faulted hrun)
  · rcases fetch_error hfetch with h | h <;> cases h
    exact ⟨rfl, nofun, fun _ => rfl, nofun⟩
  · rcases fetch_error hfetch with h | h <;> cases h
    exact ⟨rfl, nofun, fun _ => rfl, nofun⟩

end Tick

end Sys2Proof.Machine
end

section
/-! PROOFS. The boundary and the interrupt line, transactions on a stopped machine, RESET, STOP and the loader
(`10_state.md` R31, R36, `60_exceptions.md` R171, R177, R180, `70_reset_and_hazards.md` R193). -/

namespace Sys2Proof.Machine

variable {s t : State}

/-! ### Reset -/

/-- Settles O1: each field of the reset state is the tabled one. -/
theorem resetLeavesTheTabledState : Obligations.ResetLeavesTheTabledState := by
  unfold Obligations.ResetLeavesTheTabledState
  exact ⟨rfl, by decide, rfl, rfl, rfl, rfl, rfl, rfl, fun _ => rfl, rfl, rfl, rfl, rfl, rfl⟩

/-- Settles O2: no cell is listed, and the default map meets its constraints. -/
theorem resetMeetsTheBoundaryInvariant : Obligations.ResetMeetsTheBoundaryInvariant := by
  unfold Obligations.ResetMeetsTheBoundaryInvariant
  exact ⟨Memory.nil_wf, rfl, fun _ => ⟨rfl, rfl⟩, nofun, opcDefault_wf⟩

/-! ### The step as a boundary and a tick -/

theorem live_of_running (hrun : s.run = .running) (hstopped : s.stopped = false) : s.live = true := by
  simp [State.live, hrun, hstopped]

theorem not_live_of_not_running (h : s.run ≠ .running) : s.live = false := by
  simp [State.live, h]

theorem not_live_of_stopped (h : s.stopped = true) : s.live = false := by
  simp [State.live, h]

/-- Settles O14: with no interrupt due the tick runs what is fetched, which the boundary does not change. -/
theorem aStepRunsTheDecodedInstruction : Obligations.AStepRunsTheDecodedInstruction := by
  unfold Obligations.AStepRunsTheDecodedInstruction
  intro s i hrun hstopped hdue hfetch
  have hrun' : (boundary s).run = .running := (boundary_run s).trans hrun
  have hfetch' : fetch (boundary s) = .ok i := (fetch_boundary s).trans hfetch
  exact ⟨(step_of_live (live_of_running hrun hstopped)).trans (tick_of_fetch hrun' hdue hfetch'), boundary_cases s⟩

theorem transact_tick_of_not_live (h : s.live = false) : transact .tick s = .next s := by
  simp [transact, h]

/-- Settles O16: the tick asks for RUN itself, the transaction and the step ask the scheduler. -/
theorem nothingHappensOnceNotRunning : Obligations.NothingHappensOnceNotRunning := by
  unfold Obligations.NothingHappensOnceNotRunning
  intro s h
  have hlive := not_live_of_not_running h
  exact ⟨tick_of_not_running h, transact_tick_of_not_live hlive, step_of_not_live hlive⟩

/-! ### The interrupt line -/

/-- The transaction is the update that the statements name. -/
theorem irq_eq_pended (s : State) : irq s = s.pended := rfl

theorem transact_irq (h : s.stopped = false) : transact .irq s = .next s.pended := by
  simp [transact, h, irq_eq_pended]

theorem pended_reg_six (s : State) : s.pended.reg 6 = s.reg 6 ||| 1 := State.reg_setReg_same s 6 _

theorem pended_reg_ne (s : State) {k : Fin 8} (h : k ≠ 6) : s.pended.reg k = s.reg k :=
  State.reg_setReg_ne s 6 k _ h.symm

/-- An assertion is an OR, so a second one merges with the first. -/
theorem pended_pended (s : State) : s.pended.pended = s.pended := by
  have hregs : s.pended.pended.regs = s.pended.regs := by
    refine State.regs_ext fun k => ?_
    by_cases h : k = 6
    · subst h
      simp only [pended_reg_six, BitVec.or_assoc, BitVec.or_self]
    · rw [pended_reg_ne _ h]
  exact congrArg (fun regs => { s with regs := regs }) hregs

/-- Settles O25: the OR sets bit 0 and keeps every other bit. -/
theorem assertionsSetThePendingBitAndMerge : Obligations.AssertionsSetThePendingBitAndMerge := by
  unfold Obligations.AssertionsSetThePendingBitAndMerge
  intro s h
  have htwice : transact .irq s.pended = .next s.pended :=
    (transact_irq (s := s.pended) h).trans (by rw [pended_pended])
  refine ⟨transact_irq h, ?twice, ?bit, fun n hn => ?others⟩
  case twice => simp [transactAll, transact_irq h, htwice]
  case bit => simp [pended_reg_six]
  case others => simp [pended_reg_six, hn]

/-- Settles O26: entry clears R6, and an assertion then leaves R6 = 1, which R5 lets through by its bit 0. -/
theorem anInterruptNestsOnlyWhenAssertedAgain : Obligations.AnInterruptNestsOnlyWhenAssertedAgain := by
  unfold Obligations.AnInterruptNestsOnlyWhenAssertedAgain
  intro s t hrun hdue ht
  obtain rfl : enterInterrupt s = t := by simpa [tick_of_interruptDue hrun hdue] using ht
  have h6 : (enterInterrupt s).reg 6 = 0 := enterInterrupt_reg s 6
  have h5 : (enterInterrupt s).reg 5 = s.reg 5 := enterInterrupt_reg_kept s (by decide) (by decide)
  refine ⟨fun ⟨hbit, _⟩ => ?clear, fun hmask => tick_of_interruptDue (s := (enterInterrupt s).pended) hrun ⟨?bit, ?common⟩⟩
  case clear => simp [h6] at hbit
  case bit => simp [pended_reg_six]
  case common =>
    rw [pended_reg_six, pended_reg_ne _ (by decide), h5, h6]
    intro hzero
    have hbit := congrArg (·[0]) hzero
    simp [hmask] at hbit

theorem boundary_of_asserts (h : s.irqSource.asserts (s.cycle + 1) = true) :
    boundary s = { s.pended with cycle := s.cycle + 1, irqSource := s.irqSource.past } := by
  simp only [boundary, sourceActs, h, if_true]
  rfl

theorem boundary_of_not_asserts (h : s.irqSource.asserts (s.cycle + 1) = false) :
    boundary s = { s with cycle := s.cycle + 1, irqSource := s.irqSource.past } := by
  simp only [boundary, sourceActs, h]
  rfl

/-- Settles O27: the timer asserts exactly when its period divides the count, and stays what it is. -/
theorem theReferenceTimerAssertsEveryPeriod : Obligations.TheReferenceTimerAssertsEveryPeriod := by
  unfold Obligations.TheReferenceTimerAssertsEveryPeriod
  intro s period hrun hstopped htimer
  have hlive := live_of_running hrun hstopped
  have hpast : s.irqSource.past = s.irqSource := by rw [htimer]; rfl
  have hasserts : s.irqSource.asserts (s.cycle + 1) = true ↔ period ∣ s.cycle + 1 := by
    simp [htimer, IrqSource.asserts, Nat.dvd_iff_mod_eq_zero]
  refine ⟨fun hdvd => ?_, fun hdvd => ?_⟩
  · rw [step_of_live hlive, boundary_of_asserts (hasserts.mpr hdvd), hpast]
    rfl
  · rw [step_of_live hlive, boundary_of_not_asserts (Bool.eq_false_of_not_eq_true (hasserts.not.mpr hdvd)), hpast]

/-! ### A stopped run -/

/-- What a stopped machine `s` may have become: the stop request may have changed, and bit 0 of R6 may have been set. -/
def StoppedLike (s t : State) : Prop :=
  t = { s with regs := t.regs, stopped := t.stopped } ∧
    (∀ k : Fin 8, k ≠ 6 → t.reg k = s.reg k) ∧ (t.reg 6 = s.reg 6 ∨ t.reg 6 = s.reg 6 ||| 1)

theorem StoppedLike.refl (s : State) : StoppedLike s s := ⟨rfl, fun _ _ => rfl, .inl rfl⟩

theorem StoppedLike.run (h : StoppedLike s t) : t.run = s.run := by
  obtain ⟨ht, _⟩ := h
  rw [ht]

theorem StoppedLike.stop (h : StoppedLike s t) : StoppedLike s (stop t) := by
  obtain ⟨ht, hregs⟩ := h
  exact ⟨congrArg Machine.stop ht, hregs⟩

theorem StoppedLike.pended (h : StoppedLike s t) : StoppedLike s t.pended := by
  obtain ⟨ht, hother, hsix⟩ := h
  refine ⟨?frame, fun k hk => (pended_reg_ne t hk).trans (hother k hk), .inr ?six⟩
  case frame => exact congrArg (fun u => { u with regs := t.pended.regs }) ht
  case six =>
    rw [pended_reg_six]
    rcases hsix with h | h <;> simp [h, BitVec.or_assoc]

/-- Settles O17: a TICK is ignored, an IRQ sets the bit, a STOP the request. -/
theorem onlyResetLeavesAStoppedRun : Obligations.OnlyResetLeavesAStoppedRun := by
  unfold Obligations.OnlyResetLeavesAStoppedRun
  intro ts s t hrun hts ht
  refine transactAll_keeps (P := StoppedLike s) (fun x hx u v hu hv => ?_) (StoppedLike.refl s) ht
  rcases hts x hx with rfl | rfl | rfl
  · have hlive := not_live_of_not_running (s := u) (by rwa [hu.run])
    cases (transact_tick_of_not_live hlive).symm.trans hv
    exact hu
  · rcases transact_irq_next hv with rfl | rfl
    · exact hu
    · exact hu.pended
  · cases hv
    exact hu.stop

/-- Settles O59: after a STOP the scheduler issues nothing. -/
theorem resetAndStopActAtAnyBoundary : Obligations.ResetAndStopActAtAnyBoundary := by
  unfold Obligations.ResetAndStopActAtAnyBoundary
  intro s
  have hlive : (stop s).live = false := not_live_of_stopped rfl
  exact ⟨rfl, stop s, rfl, rfl, step_of_not_live hlive, transact_tick_of_not_live hlive, rfl⟩

/-! ### The loader -/

theorem loadByte_of_lt {addr : Nat} (hcycle : s.cycle = 0) (h : addr < 256) (v : Byte) :
    loadByte addr v s = .next (s.store (BitVec.ofNat 8 addr) v) := by
  simp [loadByte, hcycle, Config.memSize, h]

/-- Settles O57: the count of ticks is asked first, the address second. -/
theorem loadWritesOneByteBeforeLaunch : Obligations.LoadWritesOneByteBeforeLaunch := by
  unfold Obligations.LoadWritesOneByteBeforeLaunch
  refine fun s addr v => ⟨fun hcycle h => loadByte_of_lt hcycle h v, fun hcycle h => ?outside, fun hcycle => ?launched⟩
  case outside => simp [transact, loadByte, hcycle, Config.memSize, Nat.not_lt.mpr h]
  case launched => simp [transact, loadByte, hcycle]

/-- Loading inside memory before launch: only memory changes, the bytes stand from `addr` on, and every other cell reads as
before. -/
theorem loadFrom_next {bytes : List Byte} {addr : Nat} (hcycle : s.cycle = 0) (hfit : addr + bytes.length ≤ 256) :
    ∃ t, loadFrom addr bytes s = .next t ∧ t = { s with mem := t.mem } ∧
      (∀ (x : Byte) (k : Nat) (h : k < bytes.length), x.toNat = addr + k → t.load x = bytes[k]) ∧
      ∀ x : Byte, x.toNat < addr ∨ addr + bytes.length ≤ x.toNat → t.load x = s.load x := by
  induction bytes generalizing addr s with
  | nil => exact ⟨s, rfl, rfl, nofun, fun _ _ => rfl⟩
  | cons v vs ih =>
    rw [List.length_cons] at hfit
    have hload := loadByte_of_lt (s := s) hcycle (show addr < 256 by omega) v
    have haddr : (BitVec.ofNat 8 addr).toNat = addr := Nat.mod_eq_of_lt (by omega)
    obtain ⟨t, ht, hframe, hbytes, hother⟩ :=
      ih (addr := addr + 1) (s := s.store (BitVec.ofNat 8 addr) v) hcycle (by omega)
    refine ⟨t, ?loaded, hframe, fun x k h hx => ?stands, fun x hx => ?kept⟩
    case loaded => simpa [loadFrom, hload] using ht
    case stands =>
      cases k with
      | zero =>
        obtain rfl : x = BitVec.ofNat 8 addr := BitVec.eq_of_toNat_eq (hx.trans haddr.symm)
        exact (hother _ (.inl (by omega))).trans (State.load_store_same _ _ _)
      | succ k => exact hbytes x k (Nat.lt_of_succ_lt_succ h) (by omega)
    case kept =>
      rw [List.length_cons] at hx
      have hne : x ≠ BitVec.ofNat 8 addr := by
        rintro rfl
        omega
      exact (hother x (by omega)).trans (State.load_store_ne s v hne)

/-- Settles O58: loading from address 0. -/
theorem aLoadedProgramStandsFromAddressZero : Obligations.ALoadedProgramStandsFromAddressZero := by
  unfold Obligations.ALoadedProgramStandsFromAddressZero
  intro s bytes hcycle hlen
  obtain ⟨t, ht, hframe, hbytes, hother⟩ := loadFrom_next (bytes := bytes) (addr := 0) hcycle (by omega)
  exact ⟨t, ht, hframe, fun x h => hbytes x x.toNat h (by omega), fun x h => hother x (.inr (by omega))⟩

end Sys2Proof.Machine
end

section
/-! PROOFS. ADD, CMP, PUSH, POP, CALL, HLT (`41_alu.md`, `42_stack.md`, `44_control.md` R143, `45_system.md` R150), and
instructions in sequence (`95_test_vectors.md` S1..S3). -/

namespace Sys2Proof.Machine

variable {s : State}

/-! ### ADD and CMP -/

theorem exec_add (a b : Byte) (s : State) : exec (.add a b) s = execAdd a b s := rfl

theorem exec_cmp (a b : Byte) (s : State) : exec (.cmp a b) s = execCmp a b s := rfl

/-- The exact sum modulo 256 (`41_alu.md` R111). -/
theorem addByte_eq_mod (x y : Byte) : addByte x y = BitVec.ofNat 8 ((x.toNat + y.toNat) % 256) :=
  BitVec.eq_of_toNat_eq (by simp [addByte])

theorem advance_add_setReg (h : s.jumped = false) (i : Fin 8) (v : Byte) :
    (s.setReg i v).advance .add = { s with regs := s.regs.set i v, pc := s.pc + 3 } :=
  State.advance_of_not_jumped _ .add h

theorem advance_cmp_setFl (h : s.jumped = false) (v : Byte) :
    (s.setFl v).advance .cmp = { s with fl := v, pc := s.pc + 3 } :=
  State.advance_of_not_jumped _ .cmp h

/-- Settles O29: the faults by the two-operand forms, the effect by the sum modulo 256. -/
theorem addWrapsModulo256 : Obligations.AddWrapsModulo256 := by
  unfold Obligations.AddWrapsModulo256
  intro s a b hj
  have hneed : neededAddress .add s = s.pc.toNat + 3 := neededAddress_of_not_transfers rfl
  refine ⟨rfl, fun hpc => ?range, fun hpc ha => ?operandA, fun hpc ha hb => ?operandB, fun hpc ha hb => ?effect⟩
  case range => exact inRange_fault (by omega)
  case operandA => exact exec2_bad_operandA (by omega) ha
  case operandB => exact exec2_bad_operandB (by omega) ha hb
  case effect =>
    rw [exec_add, execAdd, exec2_ok (by omega) ha hb, advance_add_setReg hj, addByte_eq_mod]
    rfl

section Compare

variable {x y : Byte}

theorem compareFlags_of_lt (h : x.toNat < y.toNat) : compareFlags x y = 0b100 := by
  simp [compareFlags, h]

theorem compareFlags_of_gt (h : y.toNat < x.toNat) : compareFlags x y = 0b010 := by
  simp [compareFlags, h, Nat.lt_asymm h]

theorem compareFlags_self (x : Byte) : compareFlags x x = 0b001 := by
  simp [compareFlags]

end Compare

/-- Settles O30: the faults by the two-operand forms, the flags by the three orders. -/
theorem cmpWritesExactlyOneFlag : Obligations.CmpWritesExactlyOneFlag := by
  unfold Obligations.CmpWritesExactlyOneFlag
  intro s a b hj
  have hneed : neededAddress .cmp s = s.pc.toNat + 3 := neededAddress_of_not_transfers rfl
  refine ⟨rfl, fun hpc => ?range, fun hpc ha => ?operandA, fun hpc ha hb => ?operandB, fun hpc ha hb => ?effect⟩
  case range => exact inRange_fault (by omega)
  case operandA => exact exec2_bad_operandA (by omega) ha
  case operandB => exact exec2_bad_operandB (by omega) ha hb
  case effect =>
    refine ⟨compareFlags s.regs[a.toNat] s.regs[b.toNat], ?_, compareFlags_of_lt, compareFlags_of_gt, fun h => ?_⟩
    · rw [exec_cmp, execCmp, exec2_ok (by omega) ha hb, advance_cmp_setFl hj]
      rfl
    · rw [h, compareFlags_self]

/-! ### PUSH, POP and CALL -/

/-- The faults of an instruction with one register operand that needs the address two past its own. -/
theorem exec_faults_of_needs_two {i : Instr} {a : Byte} (hneed : neededAddress i.mnemonic s = s.pc.toNat + 2)
    (hregisters : i.registerBytes = [a]) :
    (253 < s.pc.toNat → RaisesAddressRange i s) ∧
      (s.pc.toNat ≤ 253 → 8 ≤ a.toNat → RaisesRegisterIndex i a s) := by
  refine ⟨fun hpc => exec_of_out_of_range (by omega), fun hpc ha => exec_of_bad_register (by omega) ?_⟩
  simp [hregisters, ha]

theorem advance_push (h : s.jumped = false) (v : Byte) :
    (push v s).advance .push =
      { s with regs := s.regs.set 7 (s.reg 7 - 1), mem := ((push v s).advance .push).mem, pc := s.pc + 2 } := by
  rw [State.advance_mem]
  exact State.advance_of_not_jumped (push v s) .push h

theorem push_load_same (v : Byte) (s : State) : (push v s).load (s.reg 7 - 1) = v :=
  (push_load v s _).trans (if_pos rfl)

theorem push_load_ne (v : Byte) (s : State) {x : Byte} (h : x ≠ s.reg 7 - 1) : (push v s).load x = s.load x :=
  (push_load v s x).trans (if_neg h)

/-- Settles O35: the register is read before the push, whose one cell and SP are its laws. -/
theorem pushStoresBelowTheStackPointer : Obligations.PushStoresBelowTheStackPointer := by
  unfold Obligations.PushStoresBelowTheStackPointer
  intro s a hj
  have hneed : neededAddress .push s = s.pc.toNat + 2 := neededAddress_of_not_transfers rfl
  obtain ⟨hrange, hoperandA⟩ := exec_faults_of_needs_two (i := .push a) hneed rfl
  refine ⟨rfl, hrange, hoperandA, fun hpc ha => ?_⟩
  refine ⟨_, exec1_ok (by omega) ha, advance_push hj _, ?stored, fun x hx => ?others⟩
  case stored => exact (State.advance_load _ _ _).trans (push_load_same _ s)
  case others => exact (State.advance_load _ _ _).trans (push_load_ne _ s hx)

/-- Settles O36: SP moves first, then the register is written. -/
theorem popLoadsFromTheStackPointer : Obligations.PopLoadsFromTheStackPointer := by
  unfold Obligations.PopLoadsFromTheStackPointer
  intro s a hj
  have hneed : neededAddress .pop s = s.pc.toNat + 2 := neededAddress_of_not_transfers rfl
  obtain ⟨hrange, hoperandA⟩ := exec_faults_of_needs_two (i := .pop a) hneed rfl
  refine ⟨rfl, hrange, hoperandA, fun hpc ha => ?_⟩
  have hexec : exec (.pop a) s = .next ((popReg ⟨a.toNat, ha⟩ s).advance .pop) := exec1_ok (by omega) ha
  rw [hexec, State.advance_of_not_jumped (popReg _ s) .pop hj]
  rfl

/-- Settles O40: the push moves SP before the register is read for the jump. -/
theorem callPushesTheReturnAddress : Obligations.CallPushesTheReturnAddress := by
  unfold Obligations.CallPushesTheReturnAddress
  intro s a hj
  have hneed : neededAddress .call s = s.pc.toNat + 2 := rfl
  obtain ⟨hrange, hoperandA⟩ := exec_faults_of_needs_two (i := .call a) hneed rfl
  refine ⟨rfl, hrange, hoperandA, fun hpc ha => ?_⟩
  have hexec : exec (.call a) s =
      .next (((push (s.pc + 2) s).jumpTo ((push (s.pc + 2) s).reg ⟨a.toNat, ha⟩)).advance .call) :=
    exec1_ok (by omega) ha
  rw [State.advance_jumpTo (s := push (s.pc + 2) s) hj] at hexec
  exact ⟨_, hexec, rfl, push_load_same _ s, fun _ => push_load_ne _ s⟩

/-! ### HLT -/

/-- Settles O42: HLT does not transfer control, so it needs its successor, and PC advances. -/
theorem hltHaltsAndAdvances : Obligations.HltHaltsAndAdvances := by
  unfold Obligations.HltHaltsAndAdvances
  intro s hj
  have hneed : neededAddress .hlt s = s.pc.toNat + 1 := neededAddress_of_not_transfers rfl
  refine ⟨rfl, fun hpc => inRange_fault (by omega), fun hpc => ?_⟩
  have hexec : exec .hlt s = .next (s.halt.advance .hlt) := inRange_ok (by omega)
  rw [hexec, State.advance_of_not_jumped s.halt .hlt hj]
  rfl

/-! ### Instructions in sequence -/

/-- Settles O54: LDI leaves the value in the register that PRN reads three addresses on. -/
theorem ldiThenPrnEmitsTheValue : Obligations.LdiThenPrnEmitsTheValue := by
  unfold Obligations.LdiThenPrnEmitsTheValue
  intro s a v hj hpc ha
  obtain ⟨_, _, _, hldi⟩ := ldiLoadsTheImmediate s a v hj
  have ht := hldi (by omega) ha
  obtain ⟨_, _, _, hprn⟩ :=
    prnAppendsADecimalEvent { s with regs := s.regs.set a.toNat v, pc := s.pc + 3 } a hj
  have hpc' : (s.pc + 3).toNat ≤ 253 := by bv_omega
  exact ⟨_, _, ht, hprn hpc' ha, by simp⟩

/-- Settles O55: the byte pushed is the one at SP when the pop reads it, and SP falls and rises by one. -/
theorem pushThenPopReturnsTheValue : Obligations.PushThenPopReturnsTheValue := by
  unfold Obligations.PushThenPopReturnsTheValue
  intro s a b ha hj hpc hb
  obtain ⟨_, _, _, hpush⟩ := pushStoresBelowTheStackPointer s a hj
  obtain ⟨t, hexec, ht, hstored, _⟩ := hpush (by omega) ha
  have htreg (k : Fin 8) : t.reg k = (s.setReg 7 (s.reg 7 - 1)).reg k := by rw [ht]; rfl
  have htpc : t.pc = s.pc + 2 := by rw [ht]
  have htsp : t.reg 7 = s.reg 7 - 1 := (htreg 7).trans (State.reg_setReg_same s 7 _)
  have htj : t.jumped = false := by rw [ht]; exact hj
  obtain ⟨_, _, _, hpop⟩ := popLoadsFromTheStackPointer t b htj
  have hb8 : b.toNat < 8 := by omega
  obtain ⟨u, hexec', hureg⟩ : ∃ u, exec (.pop b) t = .next u ∧ ∀ k, u.reg k = (popReg ⟨b.toNat, hb8⟩ t).reg k :=
    ⟨_, hpop (by rw [htpc]; bv_omega) hb8, fun _ => rfl⟩
  have hother (k : Fin 8) (hk : k.val ≠ b.toNat) : u.reg k = if 7 = k then t.reg 7 + 1 else t.reg k := by
    rw [hureg, popReg_reg, if_neg fun e => hk (Fin.ext_iff.mp e).symm]
    rfl
  have hsp : u.reg 7 = s.reg 7 := by
    rw [hother 7 (by omega), if_pos rfl, htsp, BitVec.sub_add_cancel]
  refine ⟨t, u, hexec, hexec', hsp, fun _ => ?popped, fun k hk => ?others⟩
  case popped =>
    rw [hureg, popReg_reg, if_pos rfl]
    exact (congrArg t.load htsp).trans hstored
  case others =>
    by_cases h7 : 7 = k
    · exact h7 ▸ hsp
    · rw [hother k hk, if_neg h7, htreg, State.reg_setReg_ne _ _ _ _ h7]

/-- RET raises no fault at any address. -/
theorem exec_ret_eq_next (s : State) : exec .ret s = .next (((pop s).2.jumpTo (pop s).1).advance .ret) := by
  have hneed : neededAddress .ret s ≤ 255 := by
    have := s.pc.isLt
    rw [neededAddress_ret]
    omega
  rw [exec_ret, execRet, inRange_ok hneed, finish]

/-- Settles O56: RET pops the byte that CALL pushed, whatever else has changed in between. -/
theorem retReturnsBehindTheCall : Obligations.RetReturnsBehindTheCall := by
  unfold Obligations.RetReturnsBehindTheCall
  intro s a hj hpc ha
  obtain ⟨_, _, _, hcall⟩ := callPushesTheReturnAddress s a hj
  obtain ⟨t, hexec, ht, hstored, _⟩ := hcall hpc ha
  have hsp : t.reg 7 = s.reg 7 - 1 := by
    rw [ht]
    exact State.reg_setReg_same s 7 _
  refine ⟨t, hexec, fun u hu hbyte => ⟨_, exec_ret_eq_next u, ?pc, ?sp⟩⟩
  case pc =>
    rw [State.advance_of_jumped _ _ (State.jumpTo_jumped _ _)]
    exact hbyte.trans (hsp ▸ hstored)
  case sp =>
    rw [State.advance_reg]
    exact (State.reg_setReg_same u 7 _).trans (by rw [spReg, hu, hsp, BitVec.sub_add_cancel])

end Sys2Proof.Machine
end

section
/-! PROOFS. Registers as independent cells (`10_state.md` R20), and canonical memories as the data they read as
(`20_memory.md` section 1). -/

namespace Sys2Proof.Machine

/-- Settles O5: the law of one register write, and the fact about any sequence of writes to independent cells. -/
theorem registersReadAsLastWritten : Obligations.RegistersReadAsLastWritten := by
  unfold Obligations.RegistersReadAsLastWritten
  have hwrite (s : State) (i k : Fin 8) (v : Byte) : (s.setReg i v).reg k = if k = i then v else s.reg k := by
    rw [State.reg_setReg]
    exact if_congr eq_comm rfl rfl
  exact fun s writes k => read_foldl_write hwrite writes s k

/-! ### Canonical memories -/

/-- A key that is not listed reads as the unlisted byte. -/
theorem Memory.lookup_of_not_listed {m : Memory} {k : Nat} (h : ∀ c ∈ m, c.1 ≠ k) :
    Memory.lookup m k = Config.unlistedByte := by
  induction m with
  | nil => rfl
  | cons c m ih =>
    rw [Memory.lookup, if_neg (h c (.head m))]
    exact ih fun d hd => h d (.tail c hd)

/-- Where the keys rise strictly, a listed pair is found by its key. -/
theorem Memory.lookup_of_mem {m : Memory} (hsorted : m.Pairwise fun c d => c.1 < d.1) {c : Host.Cell} (hc : c ∈ m) :
    Memory.lookup m c.1 = c.2 := by
  induction m with
  | nil => cases hc
  | cons d m ih =>
    obtain ⟨hd, hsorted⟩ := List.pairwise_cons.mp hsorted
    rcases List.mem_cons.mp hc with rfl | hc
    · exact if_pos rfl
    · rw [Memory.lookup, if_neg (hd c hc).ne, ih hsorted hc]

/-- A canonical memory lists exactly the cells that do not read as unlisted, each with what it reads as. -/
theorem Memory.mem_iff_lookup {m : Memory} (hm : m.wf) (c : Host.Cell) :
    c ∈ m ↔ Memory.lookup m c.1 = c.2 ∧ c.1 < Config.memSize ∧ c.2 ≠ Config.unlistedByte := by
  obtain ⟨hsorted, hcells⟩ := hm
  refine ⟨fun hc => ⟨Memory.lookup_of_mem hsorted hc, hcells c hc⟩, fun ⟨hread, _, hlisted⟩ => ?_⟩
  by_contra hc
  refine hlisted (hread.symm.trans (Memory.lookup_of_not_listed fun d hd hkey => hc ?_))
  obtain rfl : d = c := Prod.ext hkey ((Memory.lookup_of_mem hsorted hd).symm.trans (hkey ▸ hread))
  exact hd

theorem Memory.lookup_eq_read (m : Memory) {k : Nat} (h : k < Config.memSize) :
    Memory.lookup m k = m.read (BitVec.ofNat 8 k) := by
  have hk : (BitVec.ofNat 8 k).toNat = k := Nat.mod_eq_of_lt h
  rw [Memory.read, hk]

/-- Settles O7: both list the same pairs, and strictly rising keys leave one order to list them in. -/
theorem canonicalMemoriesThatReadAlikeAreEqual : Obligations.CanonicalMemoriesThatReadAlikeAreEqual := by
  unfold Obligations.CanonicalMemoriesThatReadAlikeAreEqual
  intro m n hm hn hread
  have hmem (c : Host.Cell) : c ∈ m ↔ c ∈ n := by
    rw [Memory.mem_iff_lookup hm, Memory.mem_iff_lookup hn]
    refine and_congr_left fun ⟨hc, _⟩ => ?_
    rw [Memory.lookup_eq_read m hc, Memory.lookup_eq_read n hc, hread]
  have hnodup {l : Memory} (h : l.wf) : l.Nodup := h.1.imp fun hlt => fun e => absurd (e ▸ hlt) (lt_irrefl _)
  refine ((List.perm_ext_iff_of_nodup (hnodup hm) (hnodup hn)).mpr hmem).eq_of_pairwise ?_ hm.1 hn.1
  exact fun c d _ _ hcd hdc => absurd hcd hdc.asymm

end Sys2Proof.Machine
end
